-- ==== Sys2Proof/Word.lean ====
section
/-! DEFINITION. The bit-vector types of the block's registers and bytes (00_scope.md R9, 10_state.md R20). -/

namespace Sys2Proof

/-- One byte of buffer memory, of the wire, or of a command word's field (R52, R70). -/
abbrev Byte := BitVec 8

/-- A 32-bit register, a command word, or a buffer-memory address: `ADDR_W` = 32 (R8, R70, R80). -/
abbrev Word := BitVec 32

/-- The 64-bit `RESULT` and a stream's 64-bit id (R23, R35). -/
abbrev DWord := BitVec 64

end Sys2Proof
end

