-- ==== Sys2Proof/Config.lean ====
section
/-! DEFINITION. The parameters of the block that are fixed for this hardware (00_scope.md R7, R8). Nothing here is state. -/

namespace Sys2Proof.Config

/-- `N_STREAMS`: the number of sequence-extender streams, 256 on this hardware (R8, D18). -/
def nStreams : Nat := 256

/-- `ADDR_W`: the width of a buffer-memory byte address (R8, D3). -/
def addrW : Nat := 32

/-- The largest destination capacity `CAP_W` = 16 bits can hold (R8, WF7 of R75, D8). -/
def maxCapacity : Nat := 0xFFFF

/-- `FLAG`: the frame delimiter byte (R8, R84). -/
def flag : Byte := 0x7E#8

/-- `ESCAPE`: the stuffing marker byte (R8, R84). -/
def escape : Byte := 0x7D#8

/-- `XOR_MASK`: the mask applied to an escaped byte (R8, R84). -/
def xorMask : Byte := 0x20#8

/-- `LEN_BYTES`: the size of a record's length slot (R8, R54). -/
def lenBytes : Nat := 2

/-- What a byte of buffer memory reads as that neither the launch nor the run has written. The spec leaves the contents at launch
to the host (R7); its programs take "all other memory 0" (95_test_vectors.md section 3). DESIGN CHOICE, unsafe: log 1. -/
def launchByte : Byte := 0#8

end Sys2Proof.Config
end

