-- ==== Sys2Proof/Syntax.lean ====
section
/-! DEFINITION. The commands of the block: one constructor per row of spec/opcode_table.json (30_encoding.md R73, R74). -/

namespace Sys2Proof

/-- A command with the fields its word carries (R70, R71). Address and length operands stand in the argument registers (R72). -/
inductive Instr where
  /-- ENC, block mode MIDDLE: no FLAG on either side (R74, R122). -/
  | encMiddle
  /-- ENC, block mode FIRST: a leading FLAG (R74, R122). -/
  | encFirst
  /-- ENC, block mode LAST: a trailing FLAG (R74, R122). -/
  | encLast
  /-- ENC, block mode COMPLETE: both FLAGs (R74, R122). -/
  | encComplete
  /-- DEC_INIT (R141). -/
  | decInit
  /-- DEC (R162). -/
  | dec
  /-- SEQ_EXTEND of a stream by a raw counter value (R181). -/
  | seqExtend (stream raw : Byte)
  /-- SEQ_INCREMENT of a stream; the word's `RAW` field is kept in the term (log 16), and ignored by the meaning (R183, D40). -/
  | seqIncrement (stream raw : Byte)
  /-- SEQ_IS_EMPTY of a stream (R185). -/
  | seqIsEmpty (stream : Byte)
  /-- SEQ_RESET of a stream (R187). -/
  | seqReset (stream : Byte)
  deriving DecidableEq, Repr

end Sys2Proof
end

