-- ==== Sys2Proof/WellFormed.lean ====
section
/-! DEFINITION. Well-formed commands. Of R75's checks, WF1 to WF5 say which words are commands at all (Decode.lean); WF6 is the one
check left on a command as syntax; WF7 reads a register and is made when the command is dispatched (Machine/Dec.lean). -/

namespace Sys2Proof

/-- WF6 of R75 for a block with `n` streams: a SEQ_* command names a stream below `n`. -/
def Instr.wfWith (n : Nat) : Instr → Bool
  | .encMiddle => true
  | .encFirst => true
  | .encLast => true
  | .encComplete => true
  | .decInit => true
  | .dec => true
  | .seqExtend stream _ => decide (stream.toNat < n)
  | .seqIncrement stream _ => decide (stream.toNat < n)
  | .seqIsEmpty stream => decide (stream.toNat < n)
  | .seqReset stream => decide (stream.toNat < n)

/-- WF6 for this hardware's `N_STREAMS` (R8). It "always holds when `N_STREAMS` = 256" (R75). -/
def Instr.wf (i : Instr) : Bool := i.wfWith Config.nStreams

end Sys2Proof
end

