-- ==== Sys2Proof/Decode.lean ====
section
/-! DEFINITION. The command word: its fields (30_encoding.md R70, R71), the checks WF1 to WF7 (R75), the decoder (R77) and the encoder. -/

namespace Sys2Proof

/-! ### Fields of a command word (R70) -/

/-- `OP`, bits 3..0. -/
def opField (w : Word) : BitVec 4 := w.extractLsb' 0 4
/-- `MODE`, bits 5..4. -/
def modeField (w : Word) : BitVec 2 := w.extractLsb' 4 2
/-- `RSV0`, bits 7..6. -/
def rsv0Field (w : Word) : BitVec 2 := w.extractLsb' 6 2
/-- `STREAM`, bits 15..8. -/
def streamField (w : Word) : Byte := w.extractLsb' 8 8
/-- `RAW`, bits 23..16. -/
def rawField (w : Word) : Byte := w.extractLsb' 16 8
/-- `RSV1`, bits 31..24. -/
def rsv1Field (w : Word) : Byte := w.extractLsb' 24 8

/-! ### The checks of R75 on a word -/

/-- The opcodes of the SEQ_* commands, 0x4 to 0x7 (R73). -/
def isSeqOp (op : BitVec 4) : Bool := decide (4 ≤ op.toNat ∧ op.toNat ≤ 7)

/-- WF1: `OP` is in 0x1 .. 0x7. -/
def wf1 (w : Word) : Bool := decide (1 ≤ (opField w).toNat ∧ (opField w).toNat ≤ 7)
/-- WF2: `RSV0` = 0 and `RSV1` = 0. -/
def wf2 (w : Word) : Bool := rsv0Field w == 0#2 && rsv1Field w == 0#8
/-- WF3: `MODE` = 0, unless `OP` = ENC. -/
def wf3 (w : Word) : Bool := opField w == 1#4 || modeField w == 0#2
/-- WF4: `STREAM` = 0, unless `OP` is one of the SEQ_* opcodes. -/
def wf4 (w : Word) : Bool := isSeqOp (opField w) || streamField w == 0#8
/-- WF5: `RAW` = 0, unless `OP` is SEQ_EXTEND or SEQ_INCREMENT. -/
def wf5 (w : Word) : Bool := opField w == 4#4 || opField w == 5#4 || rawField w == 0#8
/-- WF6, for a block with `n` streams: `STREAM` < `n`, if `OP` is a SEQ_* opcode. -/
def wf6 (n : Nat) (w : Word) : Bool := !isSeqOp (opField w) || decide ((streamField w).toNat < n)
/-- WF7: `ARG1` <= 0xFFFF, if `OP` = DEC_INIT. It "reads a register value, not the word". -/
def wf7 (arg1 : Word) (w : Word) : Bool := opField w != 2#4 || decide (arg1.toNat ≤ Config.maxCapacity)

/-! ### The decoder (R77) -/

/-- Why a word is no command (R76). The block records no cause (R201): the name serves the model's reader only. -/
inductive Illegal where
  /-- No row of the opcode table matches: one of WF1 to WF5 fails. -/
  | noRow
  /-- WF6 fails: the stream id is not below `N_STREAMS`. -/
  | noSuchStream
  deriving DecidableEq, Repr

/-- What `decode` answers: "either a command with its fields, or ILLEGAL" (R77). -/
inductive Decoded where
  | command (i : Instr)
  | illegal (why : Illegal)
  deriving DecidableEq, Repr

/-- One row of spec/opcode_table.json: a word belongs to the row when `word AND mask = pattern`. -/
structure Row where
  mask : Word
  pattern : Word
  build : Word → Instr

/-- `(word AND mask) = match` (R77). -/
def Row.admits (r : Row) (w : Word) : Bool := w &&& r.mask == r.pattern

/-- The rows of spec/opcode_table.json, in its order. -/
def opcodeTable : List Row :=
  [ ⟨0xFFFFFFFF#32, 0x00000001#32, fun _ => .encMiddle⟩,
    ⟨0xFFFFFFFF#32, 0x00000011#32, fun _ => .encFirst⟩,
    ⟨0xFFFFFFFF#32, 0x00000021#32, fun _ => .encLast⟩,
    ⟨0xFFFFFFFF#32, 0x00000031#32, fun _ => .encComplete⟩,
    ⟨0xFFFFFFFF#32, 0x00000002#32, fun _ => .decInit⟩,
    ⟨0xFFFFFFFF#32, 0x00000003#32, fun _ => .dec⟩,
    ⟨0xFF0000FF#32, 0x00000004#32, fun w => .seqExtend (streamField w) (rawField w)⟩,
    ⟨0xFF0000FF#32, 0x00000005#32, fun w => .seqIncrement (streamField w) (rawField w)⟩,
    ⟨0xFFFF00FF#32, 0x00000006#32, fun w => .seqIsEmpty (streamField w)⟩,
    ⟨0xFFFF00FF#32, 0x00000007#32, fun w => .seqReset (streamField w)⟩ ]

/-- `decode(word)` for a block with `n` streams: "first match `(word AND mask) = match` against the rows …, then apply WF6" (R77);
total on all 2^32 words. WF7 is applied at dispatch (R103). -/
def decodeWith (n : Nat) (w : Word) : Decoded :=
  match opcodeTable.find? (fun r => r.admits w) with
  | none => .illegal .noRow
  | some r => if (r.build w).wfWith n then .command (r.build w) else .illegal .noSuchStream

/-- The decoder of this hardware, `N_STREAMS` = 256. -/
def decode (w : Word) : Decoded := decodeWith Config.nStreams w

/-- The command of a decoder's answer, if it is one. -/
def Decoded.instr? : Decoded → Option Instr
  | .command i => some i
  | .illegal _ => none

/-- The command this decoder reads from the `nbits` low bits of `w`, the bits above them zero (R70: every command word has 32 bits). -/
def decodeTableWord (nbits w : Nat) : Option Instr := (decode (BitVec.ofNat 32 (w % 2 ^ nbits))).instr?

/-! ### The encoder -/

/-- A command word from its fields (R70); both reserved fields are 0. -/
def assemble (op : BitVec 4) (mode : BitVec 2) (stream raw : Byte) : Word :=
  (0#8 ++ raw ++ stream ++ 0#2 ++ mode ++ op : BitVec 32)

/-- The word of a command (R73, R74; the encodings of R122, R141, R162, R181, R183, R185, R187). -/
def encode : Instr → Word
  | .encMiddle => assemble 0x1#4 0#2 0#8 0#8
  | .encFirst => assemble 0x1#4 1#2 0#8 0#8
  | .encLast => assemble 0x1#4 2#2 0#8 0#8
  | .encComplete => assemble 0x1#4 3#2 0#8 0#8
  | .decInit => assemble 0x2#4 0#2 0#8 0#8
  | .dec => assemble 0x3#4 0#2 0#8 0#8
  | .seqExtend stream raw => assemble 0x4#4 0#2 stream raw
  | .seqIncrement stream raw => assemble 0x5#4 0#2 stream raw
  | .seqIsEmpty stream => assemble 0x6#4 0#2 stream 0#8
  | .seqReset stream => assemble 0x7#4 0#2 stream 0#8

end Sys2Proof
end

