-- ==== Sys2Proof/Machine/State.lean ====
section
/-! DEFINITION. The machine's state as plain data (10_state.md R20), its value after reset (R37, R220), and why a step can stop. -/

namespace Sys2Proof.Machine

/-- `DSTATE` (R26). Its numbers are those of D37, given by `DState.code`. -/
inductive DState where
  | hunting
  | frameStarted
  | inMessage
  | escapePending
  deriving DecidableEq, Repr

/-- The decoder state (R20, R26 to R31). -/
structure Decoder where
  /-- `DSTATE` (R26). -/
  dstate : DState
  /-- `DST_BASE`: the address of offset 0 of the destination buffer (R27). -/
  dstBase : Word
  /-- `DST_CAP`: the destination capacity in bytes (R27). -/
  dstCap : BitVec 16
  /-- `DST_VALID`: a destination buffer is set (R27). -/
  dstValid : Bool
  /-- `ANCHOR`: the offset of the pending message's length slot (R28). -/
  anchor : BitVec 16
  /-- `CURSOR`: the offset of the next payload byte (R29). -/
  cursor : BitVec 17
  /-- `COUNT`: the messages completed since the start of the current or last DEC (R30). -/
  count : BitVec 16
  /-- `OVF`: sticky overflow (R31). -/
  ovf : Bool
  deriving DecidableEq, Repr

/-- One sequence-extender instance `S[id]` of the block (R33). -/
structure Stream where
  /-- `INIT`: whether any sample has been seen yet. -/
  init : Bool
  /-- `HIGH`: the accumulated wrap count. -/
  high : BitVec 56
  /-- `LOW`: the last observed raw counter value. -/
  low : Byte
  /-- `BASELINE`: the first raw value given to SEQ_EXTEND; no command reads it (R190). -/
  baseline : Byte
  deriving DecidableEq, Repr

/-- Buffer memory (R50): the bytes that differ from `Config.launchByte`, by rising address. -/
abbrev Memory := List Host.Cell

/-- What the host can do to the block and its buffer memory between two commands (R6, R63, R100, R101, R221). -/
inductive HostAccess where
  /-- A register write of `width` bits at a byte offset of the port (R100); at offset 0x00 it is `wr CMD, value` (R102). -/
  | regWrite (offset width : Nat) (value : Word)
  /-- A register read of `width` bits (R101). -/
  | regRead (offset width : Nat)
  /-- The host writes a byte of its buffer memory (R63). -/
  | memWrite (address : Word) (value : Byte)
  /-- The host reads a byte of its buffer memory (R63). -/
  | memRead (address : Word)
  /-- The reset input, applied between host accesses (R220, R221). -/
  | reset
  deriving DecidableEq, Repr

/-- A value a read of the host returned (R116). -/
inductive Observation where
  | reg (offset : Nat) (value : Word)
  | mem (address : Word) (value : Byte)
  deriving DecidableEq, Repr

/-- The block's state (R20), the buffer memory that belongs to a run's end state (R116), and the host's side of the run:
what it is still going to do and what its reads returned (the model's own fields, log 2). -/
structure State where
  /-- `ARG0` (R22). -/
  arg0 : Word
  /-- `ARG1` (R22). -/
  arg1 : Word
  /-- `ARG2` (R22). -/
  arg2 : Word
  /-- `RESULT` (R23). -/
  result : DWord
  /-- `SEQ_SEL` (R24). -/
  seqSel : Byte
  /-- `ERR_CMD` (R25). -/
  errCmd : Bool
  /-- The decoder state (R26 to R31). -/
  dec : Decoder
  /-- The instances `S[0..255]` (R33). -/
  streams : Vector Stream 256
  /-- Buffer memory (R50). -/
  mem : Memory
  /-- The host's accesses still to come, the next one first (R116; log 2). -/
  host : List HostAccess
  /-- The values the host's reads returned, the oldest first (R116; log 2). -/
  observed : List Observation
  deriving DecidableEq, Repr

/-- The machine stops with a fault: never. "Buffer memory is total" (R57) and "the block raises no exception" (R200), so nothing raises one
and the type has no constructor; that is safe (log 4). A refused command is a next state with `ERR_CMD` = 1 (R105, log 3). -/
inductive Fault where
  deriving DecidableEq, Repr

/-- Why the model gives a step no meaning. -/
inductive Refusal where
  /-- A command without a meaning yet, raised in exec's arm only; safe. Every command has its meaning. -/
  | notModelled (mnemonic : String)
  /-- A register access narrower or wider than 32 bits, or not at a multiple of 4, raised by the host port: "The hardware's response to one is
  not specified, and a model refuses it" (R56, entry U9); safe (log 9). -/
  | registerAccess
  deriving DecidableEq, Repr

/-- The decoder after reset (R37). -/
def Decoder.reset : Decoder where
  dstate := .hunting
  dstBase := 0#32
  dstCap := 0#16
  dstValid := false
  anchor := 0#16
  cursor := 2#17
  count := 0#16
  ovf := false

/-- A fresh instance: every field 0 (R33, R187). -/
def Stream.fresh : Stream where
  init := false
  high := 0#56
  low := 0#8
  baseline := 0#8

/-- The machine right after reset (R37, R220), with nothing in buffer memory (log 1) and no host access to come (log 2). -/
def State.reset : State where
  arg0 := 0#32
  arg1 := 0#32
  arg2 := 0#32
  result := 0#64
  seqSel := 0#8
  errCmd := false
  dec := Decoder.reset
  streams := Vector.replicate 256 Stream.fresh
  mem := []
  host := []
  observed := []

end Sys2Proof.Machine
end

