-- ==== Sys2Proof/Machine/Ops.lean ====
section
/-! DEFINITION. The named operations over memory, streams and the result, and the two ways a command ends:
`return v` (40_command_interface.md R106) and `refuse()` (R105). -/

namespace Sys2Proof.Machine

/-! ### Buffer memory (20_memory.md R50 to R57) -/

/-- The byte at an address; an unlisted one reads as `Config.launchByte` (R57: every read returns a byte). -/
def Memory.readByte : Memory → Nat → Byte
  | [], _ => Config.launchByte
  | (b, v) :: rest, a => if a = b then v else Memory.readByte rest a

/-- Puts a listed byte in its place by rising address. -/
def Memory.insertByte (a : Nat) (v : Byte) : Memory → Memory
  | [] => [(a, v)]
  | (b, w) :: rest =>
    if a < b then (a, v) :: (b, w) :: rest
    else if a = b then (a, v) :: rest
    else (b, w) :: Memory.insertByte a v rest

/-- Writes one byte (R52, R57). Writing what an unlisted address reads as unlists the address, so equal memories are equal lists. -/
def Memory.writeByte (m : Memory) (a : Nat) (v : Byte) : Memory :=
  if v = Config.launchByte then m.filter (fun c => c.1 != a) else Memory.insertByte a v m

/-- The canonical form: addresses strictly rising, below 2^32, and no byte listed that an unlisted address reads as. -/
def Memory.wf : Memory → Bool
  | [] => true
  | (a, v) :: rest =>
    decide (a < 2 ^ Config.addrW) && (v != Config.launchByte) && rest.all (fun c => decide (a < c.1)) && Memory.wf rest

/-- The address `base + offset`, "computed modulo `2^ADDR_W`" (R51), as memory's key. -/
def byteAddr (base : Word) (offset : Nat) : Nat := (base + BitVec.ofNat 32 offset).toNat

/-- `MemRead(base + offset, 1)` (R10, R51). -/
def memRead (m : Memory) (base : Word) (offset : Nat) : Byte := m.readByte (byteAddr base offset)

/-- `MemWrite(base + offset, 1, v)` (R10, R51). -/
def memWrite (m : Memory) (base : Word) (offset : Nat) (v : Byte) : Memory := m.writeByte (byteAddr base offset) v

/-- One byte after another, upwards from `base + offset` (R58). -/
def memWriteAll (m : Memory) (base : Word) (offset : Nat) : List Byte → Memory
  | [] => m
  | v :: rest => memWriteAll (memWrite m base offset v) base (offset + 1) rest

/-! ### Sequence-extender instances (10_state.md R33 to R35) -/

/-- `S[id]`. -/
def State.stream (s : State) (id : Byte) : Stream := s.streams[id.toNat]'(id.isLt)

/-- `S[id] <- x`; no other instance changes (R34). -/
def State.setStream (s : State) (id : Byte) (x : Stream) : State := { s with streams := s.streams.set id.toNat x id.isLt }

/-- `V = HIGH ++ LOW`, the stream's last returned id (R35). -/
def Stream.value (x : Stream) : DWord := (x.high ++ x.low : BitVec 64)

/-! ### How a command ends -/

/-- `return v`: the command ends and `RESULT` takes its value; nothing done before is undone (R106). -/
def State.returning (s : State) (v : DWord) : State := { s with result := v }

/-- `refuse()`: `ERR_CMD <- 1`, and no other state changes (R105). This is the block's one error entry of its own: nothing is saved, there is
no vector and no return from it (R200, R205, R206). -/
def State.refuse (s : State) : State := { s with errCmd := true }

/-- Reset: every field of block state takes its reset value; buffer memory is not touched (R220). The host's side of the run goes on. -/
def State.resetBlock (s : State) : State :=
  { State.reset with mem := s.mem, host := s.host, observed := s.observed }

end Sys2Proof.Machine
end

