-- ==== Sys2Proof/Machine/Operands.lean ====
section
/-! DEFINITION. The operand forms of the commands (30_encoding.md R71, R72) and the values they are encoded from and into (R78). -/

namespace Sys2Proof.Machine

/-- The value 0 of an address argument "means absent" (R53, R72). -/
def absent (a : Word) : Bool := a == 0#32

/-- ENC's operands are a no-op when the source is empty or either pointer is absent (R125): `ARG0` source, `ARG1` length, `ARG2` output. -/
def State.encNothing (s : State) : Bool := s.arg1 == 0#32 || absent s.arg0 || absent s.arg2

/-- DEC has no input when the source is absent or its length is 0 (R162, D15): `ARG0` source, `ARG1` length. -/
def State.decNoInput (s : State) : Bool := absent s.arg0 || s.arg1 == 0#32

/-- WF7: DEC_INIT's capacity argument fits 16 bits (R75, R103): `ARG1`. -/
def State.capacityFits (s : State) : Bool := decide (s.arg1.toNat ≤ Config.maxCapacity)

/-- `ARG1[15:0]`, DEC_INIT's capacity (R103). -/
def State.capacityArg (s : State) : BitVec 16 := s.arg1.extractLsb' 0 16

/-- DEC's 64-bit result from its 32-bit return value, sign-extended (R78). -/
def decResult (v : Word) : DWord := v.signExtend 64

/-- -1, in two's complement: destination unset (R201). -/
def errUnset : Word := 0xFFFFFFFF#32
/-- -2: capacity zero (R201). -/
def errCapacityZero : Word := 0xFFFFFFFE#32
/-- -3: overflow (R201). -/
def errOverflow : Word := 0xFFFFFFFD#32

/-- ENC's block modes (R121), with the two bits of `MODE` (R74). -/
inductive BlockMode where
  | middle
  | first
  | last
  | complete
  deriving DecidableEq, Repr

/-- `MODE[0]` = 1: "prepend FLAG" (R74). -/
def leadingFlag : BlockMode → Bool
  | .middle => false
  | .first => true
  | .last => false
  | .complete => true

/-- `MODE[1]` = 1: "append FLAG" (R74). -/
def trailingFlag : BlockMode → Bool
  | .middle => false
  | .first => false
  | .last => true
  | .complete => true

end Sys2Proof.Machine
end

