-- ==== Sys2Proof/Machine/Dec.lean ====
section
/-! DEFINITION. DEC_INIT and DEC: the byte classes, the primitives, the byte machine and the two commands (42_framer_decode.md). -/

namespace Sys2Proof.Machine

/-! ### DEC_INIT (R141) -/

/-- The decoder re-armed on a destination buffer (R141): what DEC_INIT writes. -/
def Decoder.armed (base : Word) (cap : BitVec 16) : Decoder where
  dstate := .hunting
  dstBase := base
  dstCap := cap
  dstValid := !absent base
  anchor := 0#16
  cursor := 2#17
  count := 0#16
  ovf := false

/-- DEC_INIT (R141): refused when `ARG1` > 0xFFFF (WF7, R103), else the decoder is re-armed and 0 returned. -/
def execDecInit (s : State) : Host.Outcome State Fault Refusal :=
  if s.capacityFits then .next (State.returning { s with dec := Decoder.armed s.arg0 s.capacityArg } 0#64) else .next s.refuse

/-! ### What a byte works on -/

/-- The decoder state and buffer memory, all that DEC's byte machine touches (R104). -/
structure Work where
  dec : Decoder
  mem : Memory
  deriving DecidableEq, Repr

/-- What one input byte, or a run of them, leads to: the decoder goes on, or `store` signalled overflow (R151). -/
inductive Fed where
  | going (w : Work)
  | overflow (w : Work)
  deriving DecidableEq, Repr

/-- The work an outcome leaves. -/
def Fed.work : Fed → Work
  | .going w => w
  | .overflow w => w

/-- The byte classes of R150. -/
inductive ByteClass where
  | flag
  | escape
  | other
  deriving DecidableEq, Repr

/-- "Each input byte `b` is in exactly one class" (R150). -/
def classOf (b : Byte) : ByteClass :=
  if b = Config.flag then .flag else if b = Config.escape then .escape else .other

/-! ### The primitives -/

/-- `DSTATE <- d`. -/
def Work.goto (w : Work) (d : DState) : Work := { w with dec := { w.dec with dstate := d } }

/-- No room at `CURSOR`: `zext_17(DST_CAP) <= CURSOR` (R151, D10). -/
def Decoder.full (d : Decoder) : Bool := decide (d.dstCap.toNat ≤ d.cursor.toNat)

/-- `store(v)` (R151) and, if it stored, the transition's next `DSTATE`. On overflow only `OVF` changes: the byte is not stored, and "the
transition that called `store` makes no other change". -/
def store (v : Byte) (d : DState) (w : Work) : Fed :=
  if w.dec.full then .overflow { w with dec := { w.dec with ovf := true } }
  else
    .going
      { dec := { w.dec with cursor := w.dec.cursor + 1#17, dstate := d },
        mem := memWrite w.mem w.dec.dstBase w.dec.cursor.toNat v }

/-- The length of the message in progress: `(CURSOR - ANCHOR - 2)[15:0]` (R168). -/
def Decoder.messageLength (d : Decoder) : BitVec 16 := (d.cursor - d.anchor.setWidth 17 - 2#17).setWidth 16

/-- A record's length slot: two bytes, little-endian (R54). -/
def lengthBytes (len : BitVec 16) : List Byte := [len.extractLsb' 0 8, len.extractLsb' 8 8]

/-- `complete()` (R168): the length is written at `ANCHOR`, the message is counted, and the next length slot is reserved. -/
def Work.complete (w : Work) : Work where
  dec := { w.dec with
    count := w.dec.count + 1#16,
    anchor := w.dec.cursor.setWidth 16,
    cursor := w.dec.cursor + 2#17,
    dstate := .frameStarted }
  mem := memWriteAll w.mem w.dec.dstBase w.dec.anchor.toNat (lengthBytes w.dec.messageLength)

/-- `abort()` (R171): the message's payload bytes are dropped; nothing is written, counted or flagged (R176). -/
def Work.abort (w : Work) : Work :=
  { w with dec := { w.dec with cursor := w.dec.anchor.setWidth 17 + 2#17, dstate := .frameStarted } }

/-- `m`, the in-progress message with its reserved slot: `CURSOR - ANCHOR` (R160). -/
def Decoder.pending (d : Decoder) : BitVec 17 := d.cursor - d.anchor.setWidth 17

/-- The copy loop of `relocate()` (R160), `n` bytes still to move and the next one at offset `i`: upwards, one byte read and written at a time. -/
def moveDown (base : Word) (anchor : Nat) : Nat → Nat → Memory → Memory
  | 0, _, m => m
  | n + 1, i, m => moveDown base anchor n (i + 1) (memWrite m base i (memRead m base (anchor + i)))

/-- `relocate()` (R160): the in-progress message's payload, offsets 2 to `m - 1` from the anchor, moves to the front of the destination
buffer, and the records before it are dropped. (With `m` < 2, which R32 (a) rules out, no byte is moved: log 5.) -/
def Work.relocate (w : Work) : Work where
  dec := { w.dec with cursor := w.dec.pending, anchor := 0#16 }
  mem :=
    if w.dec.anchor = 0#16 then w.mem
    else moveDown w.dec.dstBase w.dec.anchor.toNat (w.dec.pending.toNat - 2) 2 w.mem

/-! ### The byte machine (R163 to R173) -/

/-- `step(DSTATE, b)`, the table of R173: one arm per state and byte class. -/
def stepByte (b : Byte) (w : Work) : Fed :=
  match w.dec.dstate, classOf b with
  | .hunting, .flag => .going (w.goto .frameStarted)              -- R163
  | .hunting, .escape => .going w                                 -- R164
  | .hunting, .other => .going w                                  -- R164
  | .frameStarted, .flag => .going w                              -- R165
  | .frameStarted, .escape => .going (w.goto .escapePending)      -- R166
  | .frameStarted, .other => store b .inMessage w                 -- R167
  | .inMessage, .flag => .going w.complete                        -- R168
  | .inMessage, .escape => .going (w.goto .escapePending)         -- R169
  | .inMessage, .other => store b .inMessage w                    -- R170
  | .escapePending, .flag => .going w.abort                       -- R171
  | .escapePending, .escape => store (b ^^^ Config.xorMask) .inMessage w   -- R172
  | .escapePending, .other => store (b ^^^ Config.xorMask) .inMessage w    -- R172

/-- The `for j` loop of R162 with `n` bytes still to read and `j` read: it stops at the first overflow, and "the rest of the DEC's input is
not read" (R151). -/
def decLoop (src : Word) : Nat → Nat → Work → Fed
  | 0, _, w => .going w
  | n + 1, j, w =>
    match stepByte (memRead w.mem src j) w with
    | .going w' => decLoop src n (j + 1) w'
    | .overflow w' => .overflow w'

/-! ### DEC (R161, R162) -/

/-- The decoder state and memory of a machine. -/
def State.work (s : State) : Work where
  dec := s.dec
  mem := s.mem

/-- A machine with the decoder state and memory a DEC leaves. -/
def State.withWork (s : State) (w : Work) : State := { s with dec := w.dec, mem := w.mem }

/-- The start of every DEC that passes its checks: `relocate()`, then `COUNT <- 0` (R162). -/
def Work.begin (w : Work) : Work := { w.relocate with dec := { w.relocate.dec with count := 0#16 } }

/-- How a DEC ends: -3 when overflow was signalled, else `COUNT`, as a 32-bit return value (R162, R78; log 14). -/
def Fed.returnValue : Fed → Word
  | .going w => w.dec.count.setWidth 32
  | .overflow _ => errOverflow

/-- DEC's work after its checks: the input bytes fed one by one, or none when there is no input (R162, D15). -/
def State.feed (s : State) : Fed :=
  if s.decNoInput then .going s.work.begin else decLoop s.arg0 s.arg1.toNat 0 s.work.begin

/-- DEC (R162): the three checks of R161 in their order, each returning with no other change, then the bytes. -/
def execDec (s : State) : Host.Outcome State Fault Refusal :=
  if !s.dec.dstValid then .next (s.returning (decResult errUnset))
  else if s.dec.dstCap = 0#16 then .next (s.returning (decResult errCapacityZero))
  else if s.dec.ovf then .next (s.returning (decResult errOverflow))
  else .next ((s.withWork s.feed.work).returning (decResult s.feed.returnValue))

end Sys2Proof.Machine
end

