-- ==== Sys2Proof/Machine/Enc.lean ====
section
/-! DEFINITION. ENC in its four block modes (41_framer_encode.md R120 to R126). -/

namespace Sys2Proof.Machine

/-- The stuffing rule per source byte (R123): FLAG and ESCAPE become ESCAPE and the byte XOR 0x20, every other byte is itself. -/
def stuff (b : Byte) : List Byte :=
  if b = Config.flag ∨ b = Config.escape then [Config.escape, b ^^^ Config.xorMask] else [b]

/-- The `for i` loop of R122 with `n` bytes still to encode, `i` done and `k` output bytes written: each source byte is read before its
output bytes are written (R58). Answers the memory and the number of bytes written (not cut to 33 bits: log 13). -/
def encLoop (src out : Word) : Nat → Nat → Nat → Memory → Memory × Nat
  | 0, _, k, m => (m, k)
  | n + 1, i, k, m =>
    encLoop src out n (i + 1) (k + (stuff (memRead m src i)).length) (memWriteAll m out k (stuff (memRead m src i)))

/-- The FLAG a block mode puts before or after the block, if it does (R121). -/
def flagIf (wanted : Bool) : List Byte := if wanted then [Config.flag] else []

/-- The leading FLAG, if the mode has one, at offset 0 of the output (R122). -/
def encHead (mode : BlockMode) (out : Word) (m : Memory) : Memory := memWriteAll m out 0 (flagIf (leadingFlag mode))

/-- The trailing FLAG, if the mode has one, after the bytes written so far (R122). -/
def encTail (mode : BlockMode) (out : Word) (r : Memory × Nat) : Memory × Nat :=
  (memWriteAll r.1 out r.2 (flagIf (trailingFlag mode)), r.2 + (flagIf (trailingFlag mode)).length)

/-- The body of ENC once its operands are present (R122): the memory it leaves and the number of bytes written. -/
def encBlock (mode : BlockMode) (src : Word) (n : Nat) (out : Word) (m : Memory) : Memory × Nat :=
  encTail mode out (encLoop src out n 0 (flagIf (leadingFlag mode)).length (encHead mode out m))

/-- The memory and the number of bytes of an encoded block, as ENC leaves them: `RESULT <- zext_64(k)` (R122, R78). -/
def State.encoded (s : State) (r : Memory × Nat) : State := State.returning { s with mem := r.1 } (BitVec.ofNat 64 r.2)

/-- ENC (R122): "Returns 0 (and performs no writes) if source is empty or either buffer pointer is absent" (R125), else the block is
encoded from `ARG1` bytes at `ARG0` to `ARG2`. No output capacity is checked (R126). -/
def State.encode (mode : BlockMode) (s : State) : State :=
  if s.encNothing then s.returning 0#64 else s.encoded (encBlock mode s.arg0 s.arg1.toNat s.arg2 s.mem)

/-- ENC.MIDDLE (R122). -/
def execEncMiddle (s : State) : Host.Outcome State Fault Refusal := .next (s.encode .middle)

/-- ENC.FIRST (R122). -/
def execEncFirst (s : State) : Host.Outcome State Fault Refusal := .next (s.encode .first)

/-- ENC.LAST (R122). -/
def execEncLast (s : State) : Host.Outcome State Fault Refusal := .next (s.encode .last)

/-- ENC.COMPLETE (R122). -/
def execEncComplete (s : State) : Host.Outcome State Fault Refusal := .next (s.encode .complete)

end Sys2Proof.Machine
end

