-- ==== Sys2Proof/Machine/Seq.lean ====
section
/-! DEFINITION. The sequence extender's four commands (43_sequence_extender.md R180 to R190). -/

namespace Sys2Proof.Machine

/-- SEQ_EXTEND on one instance (R181): the first call stores the raw value as low byte and baseline with no decrease check; later, an
unsigned decrease counts one wrap, modulo 2^56. -/
def Stream.extend (x : Stream) (raw : Byte) : Stream :=
  if x.init then { x with high := if raw.toNat < x.low.toNat then x.high + 1#56 else x.high, low := raw }
  else { x with init := true, low := raw, baseline := raw }

/-- SEQ_INCREMENT on one instance (R183): `V <- V + 1` modulo 2^64, split again into `HIGH` and `LOW`. -/
def Stream.increment (x : Stream) : Stream :=
  { x with high := (x.value + 1#64).extractLsb' 8 56, low := (x.value + 1#64).extractLsb' 0 8, init := true }

/-- SEQ_EXTEND (R181): returns `HIGH ++ raw` after the update, which is the instance's `V` (R35). -/
def execSeqExtend (id raw : Byte) (s : State) : Host.Outcome State Fault Refusal :=
  .next ((s.setStream id ((s.stream id).extend raw)).returning ((s.stream id).extend raw).value)

/-- SEQ_INCREMENT (R183): returns the counter after the increment; the word's `RAW` field is ignored (D40). -/
def execSeqIncrement (id _raw : Byte) (s : State) : Host.Outcome State Fault Refusal :=
  .next ((s.setStream id (s.stream id).increment).returning ((s.stream id).value + 1#64))

/-- SEQ_IS_EMPTY (R185): 1 if `INIT` = 0, else 0; nothing but `RESULT` changes. -/
def execSeqIsEmpty (id : Byte) (s : State) : Host.Outcome State Fault Refusal :=
  .next (s.returning (if (s.stream id).init then 0#64 else 1#64))

/-- SEQ_RESET (R187): the instance is fresh; returns 0. -/
def execSeqReset (id : Byte) (s : State) : Host.Outcome State Fault Refusal :=
  .next ((s.setStream id Stream.fresh).returning 0#64)

end Sys2Proof.Machine
end

