-- ==== Sys2Proof/Machine/Dispatch.lean ====
section
/-! DEFINITION. One arm per command (40_command_interface.md R103). -/

namespace Sys2Proof.Machine

def exec (i : Instr) (s : State) : Host.Outcome State Fault Refusal :=
  match i with
  | .encMiddle => Sys2Proof.Machine.execEncMiddle s
  | .encFirst => Sys2Proof.Machine.execEncFirst s
  | .encLast => Sys2Proof.Machine.execEncLast s
  | .encComplete => Sys2Proof.Machine.execEncComplete s
  | .decInit => Sys2Proof.Machine.execDecInit s
  | .dec => Sys2Proof.Machine.execDec s
  | .seqExtend stream raw => Sys2Proof.Machine.execSeqExtend stream raw s
  | .seqIncrement stream raw => Sys2Proof.Machine.execSeqIncrement stream raw s
  | .seqIsEmpty stream => Sys2Proof.Machine.execSeqIsEmpty stream s
  | .seqReset stream => Sys2Proof.Machine.execSeqReset stream s

end Sys2Proof.Machine
end

