-- ==== Sys2Proof/Machine/Flags.lean ====
section
/-! DEFINITION. The block's flags as the host sees them: the codes of `DSTATE` (10_state.md R26), `STATUS` and `SEQ_INFO`
(30_encoding.md R80). The block has no condition codes (R36). -/

namespace Sys2Proof.Machine

/-- A flag as one bit. -/
def flagBit (b : Bool) : BitVec 1 := BitVec.ofBool b

/-- The number of a decoder state (R26, D37). -/
def DState.code : DState → BitVec 2
  | .hunting => 0#2
  | .frameStarted => 1#2
  | .inMessage => 2#2
  | .escapePending => 3#2

/-- `STATUS`: 0 `DST_VALID`; 1 `OVF`; 2 `ERR_CMD`; 3 reserved; 5..4 `DSTATE`; 31..6 reserved, all reserved bits 0 (R80). -/
def State.statusWord (s : State) : Word :=
  (0#26 ++ s.dec.dstate.code ++ 0#1 ++ flagBit s.errCmd ++ flagBit s.dec.ovf ++ flagBit s.dec.dstValid : BitVec 32)

/-- `SEQ_INFO` of an instance: 0 `INIT`; 15..8 `LOW`; 23..16 `BASELINE` (R80). -/
def Stream.infoWord (x : Stream) : Word :=
  (0#8 ++ x.baseline ++ x.low ++ 0#7 ++ flagBit x.init : BitVec 32)

end Sys2Proof.Machine
end

