-- ==== Sys2Proof/Machine/Port.lean ====
section
/-! DEFINITION. The host's register port: the register map (30_encoding.md R80, R81) and plain register accesses
(40_command_interface.md R100, R101). A write to `CMD` is Machine/Command.lean's. -/

namespace Sys2Proof.Machine

/-- "The block admits only 32-bit register accesses at offsets that are multiples of 4" (R56). -/
def admitted (offset width : Nat) : Bool := width == 32 && offset % 4 == 0

/-- The stream the inspection registers show, if `SEQ_SEL` is below `n` = `N_STREAMS` (R81). -/
def State.selectedWith (n : Nat) (s : State) : Option Stream :=
  if s.seqSel.toNat < n then some (s.stream s.seqSel) else none

/-- The same for this hardware. -/
def State.selected (s : State) : Option Stream := s.selectedWith Config.nStreams

/-- An inspection register of the selected stream; "read as 0" when there is none (R81). -/
def inspect (f : Stream → Word) : Option Stream → Word
  | none => 0#32
  | some x => f x

/-- The value of the register at a byte offset (R80); a reserved offset reads as 0 (R81). Reading changes nothing (R101). -/
def State.readReg (s : State) (offset : Nat) : Word :=
  match offset with
  | 0x00 => 0#32                                                    -- CMD "reads as 0"
  | 0x04 => s.arg0                                               -- ARG0
  | 0x08 => s.arg1                                               -- ARG1
  | 0x0C => s.arg2                                               -- ARG2
  | 0x10 => s.result.extractLsb' 0 32                            -- RESULT_LO
  | 0x14 => s.result.extractLsb' 32 32                           -- RESULT_HI
  | 0x18 => s.statusWord                                         -- STATUS
  | 0x1C => s.dec.anchor.setWidth 32                             -- DEC_ANCHOR
  | 0x20 => s.dec.cursor.setWidth 32                             -- DEC_CURSOR
  | 0x24 => s.dec.count.setWidth 32                              -- DEC_COUNT
  | 0x28 => s.dec.dstBase                                        -- DST_BASE
  | 0x2C => s.dec.dstCap.setWidth 32                             -- DST_CAP
  | 0x30 => s.seqSel.setWidth 32                                 -- SEQ_SEL
  | 0x34 => inspect Stream.infoWord s.selected                   -- SEQ_INFO
  | 0x38 => inspect (fun x => x.high.extractLsb' 0 32) s.selected                     -- SEQ_HIGH_LO
  | 0x3C => inspect (fun x => (x.high.extractLsb' 32 24).setWidth 32) s.selected      -- SEQ_HIGH_HI
  | _ => 0#32

/-- A write to a register other than `CMD` (R100): the argument registers and `SEQ_SEL[7:0]` are writable, every other offset ignores it. -/
def State.writeReg (s : State) (offset : Nat) (v : Word) : State :=
  match offset with
  | 0x04 => { s with arg0 := v }
  | 0x08 => { s with arg1 := v }
  | 0x0C => { s with arg2 := v }
  | 0x30 => { s with seqSel := v.extractLsb' 0 8 }
  | _ => s

/-- A value a read of the host returned is added to what it has seen (R116). -/
def State.observe (s : State) (o : Observation) : State := { s with observed := s.observed ++ [o] }

end Sys2Proof.Machine
end

