-- ==== Sys2Proof/Machine/Command.lean ====
section
/-! DEFINITION. The dispatch of a command word (40_command_interface.md R102, R103) and one access of the host (R100 to R102). -/

namespace Sys2Proof.Machine

/-- `wr CMD, w` (R102, R103): a command runs; an illegal word is refused, which sets `ERR_CMD` and executes nothing (R76, R105, log 3). -/
def command (w : Word) (s : State) : Host.Outcome State Fault Refusal :=
  match decode w with
  | .command i => exec i s
  | .illegal _ => .next s.refuse

/-- One access of the host to the block or its buffer memory (R63, R100, R101, R102, R221). A register access the port does not admit is the
one thing the model refuses (R56, entry U9, log 9). -/
def perform (a : HostAccess) (s : State) : Host.Outcome State Fault Refusal :=
  match a with
  | .regWrite offset width v =>
    if !admitted offset width then .refused .registerAccess
    else if offset = 0 then command v s
    else .next (s.writeReg offset v)
  | .regRead offset width =>
    if !admitted offset width then .refused .registerAccess
    else .next (s.observe (.reg offset (s.readReg offset)))
  | .memWrite address v => .next { s with mem := s.mem.writeByte address.toNat v }
  | .memRead address => .next (s.observe (.mem address (s.mem.readByte address.toNat)))
  | .reset => .next s.resetBlock

/-- The machine once the host's next access has been taken from its program. -/
def State.withHost (s : State) (rest : List HostAccess) : State := { s with host := rest }

/-- The host access that hands the block a command word: `wr CMD, w` (R102). -/
def commandAccess (w : Word) : HostAccess := .regWrite 0x00 32 w

end Sys2Proof.Machine
end

