-- ==== Sys2Proof/Machine/Step.lean ====
section
/-! DEFINITION. One step of the machine: the host's next access, in the host's program order (20_memory.md R63). -/

namespace Sys2Proof.Machine

/-- One step. With no access to come the block waits: "no step happens without a host write" (R6), so the state stays (log 2). -/
def step (s : State) : Host.Outcome State Fault Refusal :=
  match s.host with
  | [] => .next s
  | a :: rest => perform a (s.withHost rest)

/-- The machine whose next step runs the command word in the `nbits` low bits of `w`: the host's next access is `wr CMD` of it (R65: "Command
words reach it only through host writes to `CMD`"; log 2). -/
def State.withFetchWord (s : State) (nbits w : Nat) : State :=
  s.withHost (commandAccess (BitVec.ofNat 32 (w % 2 ^ nbits)) :: s.host)

end Sys2Proof.Machine
end

