-- ==== Sys2Proof/Machine/Assembler.lean ====
section
/-! DEFINITION. The assembler syntax of host programs: `wr`, `rd` and the command pseudo-instructions (30_encoding.md R88, R89). -/

namespace Sys2Proof.Machine

/-- The registers of the port by name (R80). -/
inductive RegName where
  | CMD
  | ARG0
  | ARG1
  | ARG2
  | RESULT_LO
  | RESULT_HI
  | STATUS
  | DEC_ANCHOR
  | DEC_CURSOR
  | DEC_COUNT
  | DST_BASE
  | DST_CAP
  | SEQ_SEL
  | SEQ_INFO
  | SEQ_HIGH_LO
  | SEQ_HIGH_HI
  deriving DecidableEq, Repr

/-- The byte offset of a register (R80). -/
def RegName.offset : RegName → Nat
  | .CMD => 0x00
  | .ARG0 => 0x04
  | .ARG1 => 0x08
  | .ARG2 => 0x0C
  | .RESULT_LO => 0x10
  | .RESULT_HI => 0x14
  | .STATUS => 0x18
  | .DEC_ANCHOR => 0x1C
  | .DEC_CURSOR => 0x20
  | .DEC_COUNT => 0x24
  | .DST_BASE => 0x28
  | .DST_CAP => 0x2C
  | .SEQ_SEL => 0x30
  | .SEQ_INFO => 0x34
  | .SEQ_HIGH_LO => 0x38
  | .SEQ_HIGH_HI => 0x3C

/-- `wr NAME, v` (R88). -/
def wr (r : RegName) (v : Word) : HostAccess := .regWrite r.offset 32 v

/-- `rd NAME` (R88). -/
def rd (r : RegName) : HostAccess := .regRead r.offset 32

/-- The command pseudo-instructions of R89. -/
inductive Pseudo where
  | encM (src n out : Word)
  | encF (src n out : Word)
  | encL (src n out : Word)
  | encC (src n out : Word)
  | decInit (base cap : Word)
  | dec (src n : Word)
  | seqExt (stream raw : Byte)
  | seqInc (stream : Byte)
  | seqEmpty (stream : Byte)
  | seqReset (stream : Byte)
  deriving DecidableEq, Repr

/-- The register writes a pseudo-instruction expands to, in the order shown (R89). -/
def Pseudo.expand : Pseudo → List HostAccess
  | .encM src n out => [wr .ARG0 src, wr .ARG1 n, wr .ARG2 out, wr .CMD 0x00000001#32]
  | .encF src n out => [wr .ARG0 src, wr .ARG1 n, wr .ARG2 out, wr .CMD 0x00000011#32]
  | .encL src n out => [wr .ARG0 src, wr .ARG1 n, wr .ARG2 out, wr .CMD 0x00000021#32]
  | .encC src n out => [wr .ARG0 src, wr .ARG1 n, wr .ARG2 out, wr .CMD 0x00000031#32]
  | .decInit base cap => [wr .ARG0 base, wr .ARG1 cap, wr .CMD 0x00000002#32]
  | .dec src n => [wr .ARG0 src, wr .ARG1 n, wr .CMD 0x00000003#32]
  | .seqExt stream raw => [wr .CMD (raw.setWidth 32 <<< 16 ||| stream.setWidth 32 <<< 8 ||| 0x4#32)]
  | .seqInc stream => [wr .CMD (stream.setWidth 32 <<< 8 ||| 0x5#32)]
  | .seqEmpty stream => [wr .CMD (stream.setWidth 32 <<< 8 ||| 0x6#32)]
  | .seqReset stream => [wr .CMD (stream.setWidth 32 <<< 8 ||| 0x7#32)]

end Sys2Proof.Machine
end

