-- ==== Sys2Proof/Machine/Records.lean ====
section
/-! DEFINITION. What the host reads of a decoder and of buffer memory (30_encoding.md R84 to R86): a region's bytes, a frame, the records a DEC
left, and the payload of the message in progress. The machine runs none of it; statements are made in these words. -/

namespace Sys2Proof.Machine

/-- The `n` bytes at `base + offset` and above, in address order (R54: "the first byte sent or received is at the lowest address"). -/
def bytesAt (m : Memory) (base : Word) (offset : Nat) : Nat → List Byte
  | 0 => []
  | n + 1 => memRead m base offset :: bytesAt m base (offset + 1) n

/-- The 16-bit little-endian length at `base + offset` (R54). -/
def lengthAt (m : Memory) (base : Word) (offset : Nat) : Nat :=
  (memRead m base offset).toNat + 256 * (memRead m base (offset + 1)).toNat

/-- The payloads of `c` records, walked from `base + offset` (R86, R225). -/
def recordsAt (m : Memory) (base : Word) : Nat → Nat → List (List Byte)
  | 0, _ => []
  | c + 1, offset =>
    bytesAt m base (offset + Config.lenBytes) (lengthAt m base offset) ::
      recordsAt m base c (offset + Config.lenBytes + lengthAt m base offset)

/-- The offset at which the walk over `c` records from `base + offset` ends (R86). -/
def walkEnd (m : Memory) (base : Word) : Nat → Nat → Nat
  | 0, offset => offset
  | c + 1, offset => walkEnd m base c (offset + Config.lenBytes + lengthAt m base offset)

/-- The records a DEC left: `COUNT` of them from offset 0 (R86). -/
def Work.records (w : Work) : List (List Byte) := recordsAt w.mem w.dec.dstBase w.dec.count.toNat 0

/-- The payload of the message in progress: the bytes from `ANCHOR + 2` up to `CURSOR` (R12, R160). -/
def Work.partialPayload (w : Work) : List Byte :=
  bytesAt w.mem w.dec.dstBase (w.dec.anchor.toNat + Config.lenBytes) (w.dec.pending.toNat - Config.lenBytes)

/-- A list of bytes fed one by one to the byte machine of R173, stopping at the first overflow (R151, R162). -/
def feedBytes : List Byte → Work → Fed
  | [], w => .going w
  | b :: rest, w =>
    match stepByte b w with
    | .going w' => feedBytes rest w'
    | .overflow w' => .overflow w'

/-- The wire bytes of one payload byte, case by case as R85 lists them: 0x7E is sent as `7D 5E`, 0x7D as `7D 5D`, every other byte as itself. -/
def wireBytes (b : Byte) : List Byte :=
  if b = 0x7E#8 then [0x7D#8, 0x5E#8] else if b = 0x7D#8 then [0x7D#8, 0x5D#8] else [b]

/-- A record: its length in two bytes, the low one first, then its payload (R54, R86). -/
def recordBytes (payload : List Byte) : List Byte :=
  [BitVec.ofNat 8 payload.length, BitVec.ofNat 8 (payload.length / 256)] ++ payload

/-- A frame, or a piece of one, of a payload in a block mode: `[FLAG]? (stuffed-byte)* [FLAG]?` (R84, R121). -/
def frame (mode : BlockMode) (payload : List Byte) : List Byte :=
  (if leadingFlag mode then [0x7E#8] else []) ++ payload.flatMap wireBytes ++ (if trailingFlag mode then [0x7E#8] else [])

end Sys2Proof.Machine
end

