-- ==== Sys2Proof/Safety.lean ====
section
/-! DEFINITION. What counts as a safe run, the invariants of the state (10_state.md R32, 43_sequence_extender.md R188), and the regions of
buffer memory a command works on (70_reset_and_hazards.md R224, R228): the words the statements are made in. -/

namespace Sys2Proof.Machine

/-- No command of the run was refused: "a claim takes `ERR_CMD = 0` at its end as a premise" (R105). -/
abbrev State.noRefusal (s : State) : Prop := s.errCmd = false

/-! ### Invariants -/

/-- The decoder's invariants (R32): (a) `CURSOR >= ANCHOR + 2`; (b) in HUNTING and FRAME_STARTED `CURSOR = ANCHOR + 2`; (c) in IN_MESSAGE
`ANCHOR + 3 <= CURSOR <= DST_CAP`; (d) `ANCHOR <= DST_CAP`; (e) in ESCAPE_PENDING (b) or (c). Item (f) is a statement about writes. -/
abbrev Decoder.Inv (d : Decoder) : Prop :=
  d.anchor.toNat + 2 ≤ d.cursor.toNat ∧
  ((d.dstate = .hunting ∨ d.dstate = .frameStarted) → d.cursor.toNat = d.anchor.toNat + 2) ∧
  (d.dstate = .inMessage → d.anchor.toNat + 3 ≤ d.cursor.toNat ∧ d.cursor.toNat ≤ d.dstCap.toNat) ∧
  d.anchor.toNat ≤ d.dstCap.toNat ∧
  (d.dstate = .escapePending →
    d.cursor.toNat = d.anchor.toNat + 2 ∨ (d.anchor.toNat + 3 ≤ d.cursor.toNat ∧ d.cursor.toNat ≤ d.dstCap.toNat))

/-- "each record takes at least 3 bytes" (R162): `COUNT` records lie before `ANCHOR`. -/
abbrev Decoder.CountBound (d : Decoder) : Prop := 3 * d.count.toNat ≤ d.anchor.toNat

/-- An instance no sample has reached is fresh: `INIT` = 0 implies `HIGH` = 0, `LOW` = 0 and `BASELINE` = 0 (R188). -/
abbrev Stream.Inv (x : Stream) : Prop := x.init = false → x.high = 0#56 ∧ x.low = 0#8 ∧ x.baseline = 0#8

/-- R188 for every instance. -/
abbrev State.StreamsInv (s : State) : Prop := ∀ id : Byte, (s.stream id).Inv

/-! ### Regions of buffer memory -/

/-- The address is one of the `n` bytes from `base` on, addresses taken modulo `2^ADDR_W` (R51). -/
abbrev inRegion (a : Nat) (base : Word) (n : Nat) : Prop := ∃ i, i < n ∧ a = byteAddr base i

/-- Two regions share no byte (R228). -/
abbrev apart (base₁ : Word) (n₁ : Nat) (base₂ : Word) (n₂ : Nat) : Prop :=
  ∀ i, i < n₁ → ∀ j, j < n₂ → byteAddr base₁ i ≠ byteAddr base₂ j

/-- Every byte outside the region reads as before. -/
abbrev keepsOutside (m m' : Memory) (base : Word) (n : Nat) : Prop :=
  ∀ a : Nat, ¬ inRegion a base n → m'.readByte a = m.readByte a

/-- The bytes of ENC's source region (R72): `ARG1` bytes at `ARG0`. -/
abbrev State.sourceBytes (s : State) : List Byte := bytesAt s.mem s.arg0 0 s.arg1.toNat

/-- DEC passes the three checks of R161: a destination is set, its capacity is not zero, and no overflow is pending. -/
abbrev Decoder.ready (d : Decoder) : Prop := d.dstValid = true ∧ d.dstCap ≠ 0#16 ∧ d.ovf = false

/-- The block mode of each ENC command (R74). -/
def modeOf : List (Instr × BlockMode) :=
  [(.encMiddle, .middle), (.encFirst, .first), (.encLast, .last), (.encComplete, .complete)]

/-! ### Sequences of commands, as a host issues them -/

/-- DECs of consecutive pieces of a byte string from `src` on, the host reading the records after each one (R177, R225): all the records read,
and the machine after the last DEC. -/
def decPieces (src : Word) : List Nat → State → Option (List (List Byte) × State)
  | [], s => some ([], s)
  | n :: rest, s =>
    match exec .dec { s with arg0 := src, arg1 := BitVec.ofNat 32 n } with
    | .next t => (decPieces (src + BitVec.ofNat 32 n) rest t).map fun r => (t.work.records ++ r.1, r.2)
    | .fault _ => none
    | .refused _ => none

/-- ENC commands of pieces (command, source address, length), the outputs placed end to end from `out` on (R127): the number of bytes written
in all, and the machine after the last ENC. -/
def encPieces (out : Word) : List (Instr × Word × Nat) → State → Option (Nat × State)
  | [], s => some (0, s)
  | (i, src, n) :: rest, s =>
    match exec i { s with arg0 := src, arg1 := BitVec.ofNat 32 n, arg2 := out } with
    | .next t => (encPieces (out + BitVec.ofNat 32 t.result.toNat) rest t).map fun r => (t.result.toNat + r.1, r.2)
    | .fault _ => none
    | .refused _ => none

/-- One command after another (R116): the value each returned in `RESULT`, and the machine after the last. -/
def runCommands : List Instr → State → Option (List DWord × State)
  | [], s => some ([], s)
  | i :: rest, s =>
    match exec i s with
    | .next t => (runCommands rest t).map fun r => (t.result :: r.1, r.2)
    | .fault _ => none
    | .refused _ => none

end Sys2Proof.Machine
end

