-- ==== Sys2Proof/Certificates/Slice0/Obligations.lean ====
section
/-! DEFINITION. The statements about the machine, for the provers. Each formalises the rules its docstring cites. -/

open Sys2Proof Sys2Proof.Machine

/-! ### Command words -/

/-- R90: the worked encodings and the illegal words, with the check each fails. -/
def Obligations.WorkedWordsDecode : Prop :=
  (Pseudo.seqExt 3#8 0xFF#8).expand = [wr .CMD 0x00FF0304#32] ∧
  (Pseudo.seqInc 0x10#8).expand = [wr .CMD 0x00001005#32] ∧
  (Pseudo.seqEmpty 0#8).expand = [wr .CMD 0x00000006#32] ∧
  (Pseudo.seqReset 255#8).expand = [wr .CMD 0x0000FF07#32] ∧
  (∀ src n out, (Pseudo.encC src n out).expand = [wr .ARG0 src, wr .ARG1 n, wr .ARG2 out, wr .CMD 0x00000031#32]) ∧
  decode 0x00FF0304#32 = .command (.seqExtend 3#8 0xFF#8) ∧
  decode 0x00001005#32 = .command (.seqIncrement 0x10#8 0#8) ∧
  decode 0x00000006#32 = .command (.seqIsEmpty 0#8) ∧
  decode 0x0000FF07#32 = .command (.seqReset 255#8) ∧
  decode 0x00000031#32 = .command .encComplete ∧
  decode 0x00000000#32 = .illegal .noRow ∧ wf1 0x00000000#32 = false ∧
  decode 0x00000013#32 = .illegal .noRow ∧ wf3 0x00000013#32 = false ∧
  decode 0x00000103#32 = .illegal .noRow ∧ wf4 0x00000103#32 = false ∧
  decode 0x00010006#32 = .illegal .noRow ∧ wf5 0x00010006#32 = false ∧
  decode 0x01000004#32 = .illegal .noRow ∧ wf2 0x01000004#32 = false ∧
  decode 0x00000008#32 = .illegal .noRow ∧ wf1 0x00000008#32 = false ∧
  decode 0x00AB0005#32 = .command (.seqIncrement 0#8 0xAB#8)

/-- R74: the codes of the block modes, as command words. -/
def Obligations.BlockModeWordsDecode : Prop :=
  decode 0x00000001#32 = .command .encMiddle ∧ decode 0x00000011#32 = .command .encFirst ∧
  decode 0x00000021#32 = .command .encLast ∧ decode 0x00000031#32 = .command .encComplete ∧
  leadingFlag .middle = false ∧ trailingFlag .middle = false ∧ leadingFlag .first = true ∧ trailingFlag .first = false ∧
  leadingFlag .last = false ∧ trailingFlag .last = true ∧ leadingFlag .complete = true ∧ trailingFlag .complete = true ∧
  (∀ i ∈ [Instr.encMiddle, .encFirst, .encLast, .encComplete],
    (modeField (encode i)).getLsbD 0 = (i == .encFirst || i == .encComplete) ∧
    (modeField (encode i)).getLsbD 1 = (i == .encLast || i == .encComplete))

/-- R70, R71, R73, R77: every command, with every operand value its word admits, is decoded from its own word. -/
def Obligations.DecodeOfEncode : Prop :=
  ∀ i : Instr, i.wf = true → decode (encode i) = .command i

/-- R77: a word that decodes to a term of `Instr` is that term's own word, so two words never decode to one term. Of SEQ_INCREMENT this rests on the
model's choice to keep the `RAW` field in the term (log 16): its words that differ only in `RAW` are different terms with one meaning, since the
command ignores `RAW` (R183, SeqIncrementResult). -/
def Obligations.EncodeOfDecode : Prop :=
  ∀ (w : Word) (i : Instr), decode w = .command i → encode i = w

/-- R77: "No two rows match the same word". -/
def Obligations.OpcodeRowsDisjoint : Prop :=
  opcodeTable.Pairwise fun r r' => ∀ w : Word, ¬ (r.admits w = true ∧ r'.admits w = true)

/-- R77 with R75: for every number of streams the table's decoder finds a command exactly for the words that pass WF1 to WF6. -/
def Obligations.DecodeAgreesWithChecks : Prop :=
  ∀ (n : Nat) (w : Word), (∃ i, decodeWith n w = .command i) ↔
    (wf1 w = true ∧ wf2 w = true ∧ wf3 w = true ∧ wf4 w = true ∧ wf5 w = true ∧ wf6 n w = true)

/-- R75: a word that passes all of WF1 to WF7 runs as the command it encodes; one that fails any of them is refused; WF6
always holds. That the command's own word is the word written, `RAW` of SEQ_INCREMENT included, rests on the model's choice (log 16). -/
def Obligations.WellFormedWordsRun : Prop :=
  ∀ (w : Word) (s : State),
    let ok := wf1 w && wf2 w && wf3 w && wf4 w && wf5 w && wf6 Config.nStreams w && wf7 s.arg1 w
    (ok = true → ∃ i, decode w = .command i ∧ command w s = exec i s ∧ encode i = w) ∧
    (ok = false → command w s = .next { s with errCmd := true }) ∧
    wf6 Config.nStreams w = true

/-! ### The host port

That the host's accesses to come stand in State as a list, one taken by each step, is the model's own choice (log 2). -/

/-- R102: `wr CMD, w` runs exactly the command the word encodes, on the machine whose host has made that access. -/
def Obligations.StepRunsTheDecodedCommand : Prop :=
  ∀ (s : State) (w : Word) (i : Instr) (rest : List HostAccess),
    s.host = .regWrite 0x00 32 w :: rest → decode w = .command i → step s = exec i { s with host := rest }

/-- R105: a refused word sets `ERR_CMD` and changes nothing else, buffer memory included; the run is no longer one without a refusal. -/
def Obligations.RefusedWordSetsErrCmdOnly : Prop :=
  ∀ (s : State) (w : Word) (rest : List HostAccess),
    s.host = .regWrite 0x00 32 w :: rest →
    ((∃ why, decode w = .illegal why) ∨ (decode w = .command .decInit ∧ 0xFFFF < s.arg1.toNat)) →
    step s = .next { s with host := rest, errCmd := true } ∧ ¬ State.noRefusal { s with host := rest, errCmd := true }

/-- R101: an admitted register read returns the register's value to the host and changes no state of the block or its memory. -/
def Obligations.RegisterReadChangesNothing : Prop :=
  ∀ (s : State) (offset : Nat) (rest : List HostAccess),
    s.host = .regRead offset 32 :: rest → offset % 4 = 0 →
    step s = .next { s with host := rest, observed := s.observed ++ [.reg offset (s.readReg offset)] }

/-- R80, R81: the value of every register, bit by bit, and 0 at every reserved offset. -/
def Obligations.RegisterMapValues : Prop :=
  ∀ s : State,
    s.readReg 0x00 = 0#32 ∧ s.readReg 0x04 = s.arg0 ∧ s.readReg 0x08 = s.arg1 ∧ s.readReg 0x0C = s.arg2 ∧
    (∀ k, k < 32 → (s.readReg 0x10).getLsbD k = s.result.getLsbD k) ∧
    (∀ k, k < 32 → (s.readReg 0x14).getLsbD k = s.result.getLsbD (32 + k)) ∧
    (s.readReg 0x18).getLsbD 0 = s.dec.dstValid ∧ (s.readReg 0x18).getLsbD 1 = s.dec.ovf ∧
    (s.readReg 0x18).getLsbD 2 = s.errCmd ∧ (s.readReg 0x18).getLsbD 3 = false ∧
    (s.readReg 0x18).getLsbD 4 = (s.dec.dstate == .frameStarted || s.dec.dstate == .escapePending) ∧
    (s.readReg 0x18).getLsbD 5 = (s.dec.dstate == .inMessage || s.dec.dstate == .escapePending) ∧
    (∀ k, 6 ≤ k → (s.readReg 0x18).getLsbD k = false) ∧
    (s.readReg 0x1C).toNat = s.dec.anchor.toNat ∧ (s.readReg 0x20).toNat = s.dec.cursor.toNat ∧
    (s.readReg 0x24).toNat = s.dec.count.toNat ∧ s.readReg 0x28 = s.dec.dstBase ∧
    (s.readReg 0x2C).toNat = s.dec.dstCap.toNat ∧ (s.readReg 0x30).toNat = s.seqSel.toNat ∧
    (s.readReg 0x34).getLsbD 0 = (s.stream s.seqSel).init ∧
    (∀ k, 1 ≤ k → k < 8 → (s.readReg 0x34).getLsbD k = false) ∧
    (∀ k, k < 8 → (s.readReg 0x34).getLsbD (8 + k) = (s.stream s.seqSel).low.getLsbD k) ∧
    (∀ k, k < 8 → (s.readReg 0x34).getLsbD (16 + k) = (s.stream s.seqSel).baseline.getLsbD k) ∧
    (∀ k, 24 ≤ k → (s.readReg 0x34).getLsbD k = false) ∧
    (∀ k, k < 32 → (s.readReg 0x38).getLsbD k = (s.stream s.seqSel).high.getLsbD k) ∧
    (∀ k, k < 24 → (s.readReg 0x3C).getLsbD k = (s.stream s.seqSel).high.getLsbD (32 + k)) ∧
    (∀ k, 24 ≤ k → (s.readReg 0x3C).getLsbD k = false) ∧
    (∀ offset, 0x40 ≤ offset → s.readReg offset = 0#32)

/-- R100: what an admitted write to a register other than `CMD` does, for every offset of the port. -/
def Obligations.RegisterWrites : Prop :=
  ∀ (s : State) (offset : Nat) (v : Word) (rest : List HostAccess),
    s.host = .regWrite offset 32 v :: rest → offset % 4 = 0 → offset ≠ 0 →
    (offset = 0x04 → step s = .next { s with host := rest, arg0 := v }) ∧
    (offset = 0x08 → step s = .next { s with host := rest, arg1 := v }) ∧
    (offset = 0x0C → step s = .next { s with host := rest, arg2 := v }) ∧
    (offset = 0x30 → step s = .next { s with host := rest, seqSel := v.extractLsb' 0 8 }) ∧
    (offset ≠ 0x04 → offset ≠ 0x08 → offset ≠ 0x0C → offset ≠ 0x30 → step s = .next { s with host := rest })

/-- R56: a register access that is not 32 bits wide or not at a multiple of 4 is refused by name, whatever the state and the register; and a step
that answers no next state had such an access to perform. That the model refuses it, where the rule leaves the response open, is its choice
(log 9). -/
def Obligations.OnlyUnadmittedAccessesStop : Prop :=
  ∀ s : State,
    (∀ (offset width : Nat) (rest : List HostAccess),
      ((∃ v, s.host = .regWrite offset width v :: rest) ∨ s.host = .regRead offset width :: rest) →
      (width ≠ 32 ∨ offset % 4 ≠ 0) → step s = .refused .registerAccess) ∧
    ((∀ t, step s ≠ .next t) →
      ∃ (offset width : Nat) (rest : List HostAccess),
        ((∃ v, s.host = .regWrite offset width v :: rest) ∨ s.host = .regRead offset width :: rest) ∧
        (width ≠ 32 ∨ offset % 4 ≠ 0))

/-- R37: every field of block state after reset. -/
def Obligations.ResetValues : Prop :=
  State.reset.arg0 = 0#32 ∧ State.reset.arg1 = 0#32 ∧ State.reset.arg2 = 0#32 ∧ State.reset.result = 0#64 ∧
  State.reset.seqSel = 0#8 ∧ State.reset.errCmd = false ∧ State.reset.dec.dstate = .hunting ∧
  State.reset.dec.dstBase = 0#32 ∧ State.reset.dec.dstCap = 0#16 ∧ State.reset.dec.dstValid = false ∧
  State.reset.dec.anchor = 0#16 ∧ State.reset.dec.cursor = 2#17 ∧ State.reset.dec.count = 0#16 ∧ State.reset.dec.ovf = false ∧
  (∀ id : Byte, (State.reset.stream id).init = false ∧ (State.reset.stream id).high = 0#56 ∧
    (State.reset.stream id).low = 0#8 ∧ (State.reset.stream id).baseline = 0#8)

/-- R220, R221: reset, as a step of its own between two accesses, gives every field of block state its reset value and leaves buffer memory, and
what the host has seen, alone (the host's side is the model's own: log 10). -/
def Obligations.ResetStepKeepsBufferMemory : Prop :=
  ∀ (s : State) (rest : List HostAccess), s.host = .reset :: rest →
    step s = .next { State.reset with mem := s.mem, host := rest, observed := s.observed }

/-- R63, R57: a byte the host writes is the byte it reads next, whatever the address, and no other byte changes. -/
def Obligations.HostMemoryReadAfterWrite : Prop :=
  ∀ (s : State) (a a' : Word) (v : Byte) (rest : List HostAccess), s.host = .memWrite a v :: .memRead a' :: rest →
    ∃ t u, step s = .next t ∧ step t = .next u ∧
      u.observed = s.observed ++ [.mem a' (if a' = a then v else s.mem.readByte a'.toNat)] ∧
      u = { s with mem := t.mem, host := rest, observed := u.observed } ∧
      (∀ c, c ≠ a.toNat → t.mem.readByte c = s.mem.readByte c)

/-! ### What a command touches -/

/-- R104 (the writes): every command completes, and writes only `RESULT`, its own unit's state and, for ENC and DEC, buffer memory; `ERR_CMD`
changes only when a DEC_INIT is refused. The host's side of the run is untouched. -/
def Obligations.CommandsWriteOnlyTheirUnit : Prop :=
  ∀ (i : Instr) (s : State), ∃ t, exec i s = .next t ∧
    t.arg0 = s.arg0 ∧ t.arg1 = s.arg1 ∧ t.arg2 = s.arg2 ∧ t.seqSel = s.seqSel ∧ t.host = s.host ∧ t.observed = s.observed ∧
    (t.errCmd = s.errCmd ∨ (i = .decInit ∧ 0xFFFF < s.arg1.toNat)) ∧
    (t.dec = s.dec ∨ i = .decInit ∨ i = .dec) ∧
    (t.mem = s.mem ∨ i = .dec ∨ i = .encMiddle ∨ i = .encFirst ∨ i = .encLast ∨ i = .encComplete) ∧
    (∀ id : Byte, t.stream id = s.stream id ∨ (∃ raw, i = .seqExtend id raw) ∨ (∃ raw, i = .seqIncrement id raw) ∨ i = .seqReset id)

/-- R104 (the reads), R2: a command's result and what it writes depend only on its arguments, its own unit's state and, for ENC and DEC, buffer
memory: two machines that agree there agree after it. -/
def Obligations.CommandsReadOnlyTheirUnit : Prop :=
  ∀ s s' : State, s.arg0 = s'.arg0 → s.arg1 = s'.arg1 → s.arg2 = s'.arg2 →
    (∀ i ∈ [Instr.encMiddle, .encFirst, .encLast, .encComplete], s.mem = s'.mem →
      ∃ t t', exec i s = .next t ∧ exec i s' = .next t' ∧ t.mem = t'.mem ∧ t.result = t'.result) ∧
    (s.arg1.toNat ≤ 0xFFFF → ∃ t t', exec .decInit s = .next t ∧ exec .decInit s' = .next t' ∧ t.dec = t'.dec ∧ t.result = t'.result) ∧
    (s.mem = s'.mem → s.dec = s'.dec →
      ∃ t t', exec .dec s = .next t ∧ exec .dec s' = .next t' ∧ t.dec = t'.dec ∧ t.mem = t'.mem ∧ t.result = t'.result) ∧
    (∀ (id raw : Byte), s.stream id = s'.stream id →
      ∀ i ∈ [Instr.seqExtend id raw, .seqIncrement id raw, .seqIsEmpty id, .seqReset id],
        ∃ t t', exec i s = .next t ∧ exec i s' = .next t' ∧ t.stream id = t'.stream id ∧ t.result = t'.result)

/-- R25: `ERR_CMD` is set by a refused command word and by nothing else, and nothing but reset clears it; the host reads it as `STATUS[2]`. -/
def Obligations.ErrCmdIsSticky : Prop :=
  State.reset.errCmd = false ∧
  (∀ s : State, (s.readReg 0x18).getLsbD 2 = s.errCmd) ∧
  ∀ s t : State, step s = .next t →
    (s.errCmd = true → t.errCmd = true ∨ ∃ rest, s.host = .reset :: rest) ∧
    (∀ rest, s.host = .reset :: rest → t.errCmd = false) ∧
    (s.errCmd = false → (t.errCmd = true ↔
      ∃ w rest, s.host = .regWrite 0x00 32 w :: rest ∧
        ((∃ why, decode w = .illegal why) ∨ (decode w = .command .decInit ∧ 0xFFFF < s.arg1.toNat))))

/-- R6, R22, R102, R221: only a command or reset changes `RESULT`, the decoder or a stream, and only the host's own register writes or reset
change an argument register or `SEQ_SEL`. -/
def Obligations.OnlyCommandsChangeTheUnits : Prop :=
  ∀ s t : State, step s = .next t →
    ((∃ w rest, s.host = .regWrite 0x00 32 w :: rest) ∨ (∃ rest, s.host = .reset :: rest) ∨
      (t.result = s.result ∧ t.dec = s.dec ∧ t.streams = s.streams)) ∧
    ((∃ offset v rest, s.host = .regWrite offset 32 v :: rest ∧ offset ≠ 0) ∨ (∃ rest, s.host = .reset :: rest) ∨
      (t.arg0 = s.arg0 ∧ t.arg1 = s.arg1 ∧ t.arg2 = s.arg2 ∧ t.seqSel = s.seqSel))

/-! ### ENC -/

/-- R125: an empty source or an absent pointer makes every block mode a no-op that returns 0, and nothing else makes an ENC return 0. -/
def Obligations.EncWithoutOperandsReturnsZero : Prop :=
  ∀ (s : State) (i : Instr), i ∈ [Instr.encMiddle, .encFirst, .encLast, .encComplete] →
    ((s.arg1 = 0#32 ∨ s.arg0 = 0#32 ∨ s.arg2 = 0#32) → exec i s = .next { s with result := 0#64 }) ∧
    (¬ (s.arg1 = 0#32 ∨ s.arg0 = 0#32 ∨ s.arg2 = 0#32) → ∃ t, exec i s = .next t ∧ 1 ≤ t.result.toNat)

/-- R124, R126 (whatever regions overlap): with its operands present every ENC completes with `n <= k <= 2n + 2` in `RESULT`, writes no byte
outside `o + [0, k)`, and changes nothing but `RESULT` and buffer memory. -/
def Obligations.EncCompletesAndWritesOnlyItsOutput : Prop :=
  ∀ (s : State) (i : Instr), i ∈ [Instr.encMiddle, .encFirst, .encLast, .encComplete] →
    s.arg0 ≠ 0#32 → s.arg1 ≠ 0#32 → s.arg2 ≠ 0#32 →
    ∃ t, exec i s = .next t ∧ t = { s with mem := t.mem, result := t.result } ∧
      s.arg1.toNat ≤ t.result.toNat ∧ t.result.toNat ≤ 2 * s.arg1.toNat + 2 ∧
      ∀ a : Nat, (∀ j, j < t.result.toNat → a ≠ byteAddr s.arg2 j) → t.mem.readByte a = s.mem.readByte a

/-- R121, R123: where source and output share no byte, each ENC leaves exactly the frame of its source at the output address, every FLAG and
ESCAPE of the source stuffed and the mode's FLAGs around it, returns the frame's length, and changes no other byte. -/
def Obligations.EncWritesTheStuffedFrame : Prop :=
  ∀ (s : State) (i : Instr) (mode : BlockMode), (i, mode) ∈ modeOf →
    s.arg0 ≠ 0#32 → s.arg1 ≠ 0#32 → s.arg2 ≠ 0#32 →
    apart s.arg0 s.arg1.toNat s.arg2 (frame mode s.sourceBytes).length →
    ∃ m, exec i s = .next { s with mem := m, result := BitVec.ofNat 64 (frame mode s.sourceBytes).length } ∧
      bytesAt m s.arg2 0 (frame mode s.sourceBytes).length = frame mode s.sourceBytes ∧
      keepsOutside s.mem m s.arg2 (frame mode s.sourceBytes).length

/-- R124: `k = n + e + MODE[0] + MODE[1]`, with `e` the number of source bytes equal to 0x7E or 0x7D, where source and output share no byte;
`k = 2n + 2` exactly when every source byte is one of them and the mode is COMPLETE. -/
def Obligations.EncByteCount : Prop :=
  ∀ (s : State) (i : Instr) (mode : BlockMode), (i, mode) ∈ modeOf →
    s.arg0 ≠ 0#32 → s.arg1 ≠ 0#32 → s.arg2 ≠ 0#32 →
    apart s.arg0 s.arg1.toNat s.arg2 (2 * s.arg1.toNat + 2) →
    ∃ t, exec i s = .next t ∧
      t.result.toNat = s.arg1.toNat + s.sourceBytes.countP (fun b => b == 0x7E#8 || b == 0x7D#8) +
        (modeField (encode i)).toNat % 2 + (modeField (encode i)).toNat / 2 ∧
      (t.result.toNat = 2 * s.arg1.toNat + 2 ↔ (∀ b ∈ s.sourceBytes, b = 0x7E#8 ∨ b = 0x7D#8) ∧ i = .encComplete)

/-- R128: in the output of an ENC a byte 0x7E occurs only as the mode's leading or trailing FLAG, and every 0x7D is followed by 0x5E or 0x5D.
(Outputs longer than 2^32 bytes, which wrap onto themselves, are left out.) -/
def Obligations.EncOutputIsEscaped : Prop :=
  ∀ (s t : State) (i : Instr) (mode : BlockMode), (i, mode) ∈ modeOf →
    s.arg0 ≠ 0#32 → s.arg1 ≠ 0#32 → s.arg2 ≠ 0#32 → exec i s = .next t → t.result.toNat ≤ 2 ^ 32 →
    ∀ j, j < t.result.toNat →
      (memRead t.mem s.arg2 j = 0x7E#8 →
        (j = 0 ∧ leadingFlag mode = true) ∨ (j + 1 = t.result.toNat ∧ trailingFlag mode = true)) ∧
      (memRead t.mem s.arg2 j = 0x7D#8 → j + 1 < t.result.toNat ∧
        (memRead t.mem s.arg2 (j + 1) = 0x5E#8 ∨ memRead t.mem s.arg2 (j + 1) = 0x5D#8))

/-- R127: non-empty pieces encoded FIRST, MIDDLE, …, MIDDLE, LAST, their outputs end to end, give byte for byte the COMPLETE encoding of the
pieces' concatenation. (The output region ends at or below the top of memory, so that no piece's output address is the absent pointer 0.) -/
def Obligations.SplitEncodingIsCompleteEncoding : Prop :=
  ∀ (s : State) (out src₁ srcₘ : Word) (n₁ nₘ : Nat) (mids : List (Word × Nat)),
    let pieces := (src₁, n₁) :: (mids ++ [(srcₘ, nₘ)])
    let whole := frame .complete (pieces.flatMap fun p => bytesAt s.mem p.1 0 p.2)
    out ≠ 0#32 → (∀ p ∈ pieces, p.1 ≠ 0#32 ∧ 1 ≤ p.2 ∧ p.2 < 2 ^ 32 ∧ apart p.1 p.2 out whole.length) →
    out.toNat + whole.length ≤ 2 ^ 32 →
    ∃ t, encPieces out ((.encFirst, src₁, n₁) :: (mids.map (fun p => (.encMiddle, p.1, p.2)) ++ [(.encLast, srcₘ, nₘ)])) s
        = some (whole.length, t) ∧
      bytesAt t.mem out 0 whole.length = whole ∧ keepsOutside s.mem t.mem out whole.length

/-! ### DEC_INIT -/

/-- R141: DEC_INIT sets the destination and re-arms the decoder, whatever its state, and returns 0; with `ARG1` > 0xFFFF it is refused. -/
def Obligations.DecInitArmsTheDecoder : Prop :=
  ∀ s : State,
    (s.arg1.toNat ≤ 0xFFFF →
      exec .decInit s = .next { s with
        dec := { dstate := .hunting, dstBase := s.arg0, dstCap := s.arg1.extractLsb' 0 16, dstValid := s.arg0 != 0#32,
                 anchor := 0#16, cursor := 2#17, count := 0#16, ovf := false },
        result := 0#64 }) ∧
    (0xFFFF < s.arg1.toNat → exec .decInit s = .next { s with errCmd := true })

/-! ### DEC -/

/-- R161: the three checks, in their order, each returning its code with no other change; a DEC before any DEC_INIT returns -1. -/
def Obligations.DecErrorCodesInOrder : Prop :=
  ∀ s : State,
    (s.dec.dstValid = false → exec .dec s = .next { s with result := -1#64 }) ∧
    (s.dec.dstValid = true → s.dec.dstCap = 0#16 → exec .dec s = .next { s with result := -2#64 }) ∧
    (s.dec.dstValid = true → s.dec.dstCap ≠ 0#16 → s.dec.ovf = true → exec .dec s = .next { s with result := -3#64 }) ∧
    exec .dec State.reset = .next { State.reset with result := -1#64 }

/-- R160 and R162 (no input): a DEC without input only relocates: the offsets shift down by the old `ANCHOR`, the payload in progress stands at
offset 2, no other byte changes, `COUNT` is 0 and 0 is returned. -/
def Obligations.DecWithoutInputRelocates : Prop :=
  ∀ s : State, s.dec.ready → s.dec.Inv → (s.arg0 = 0#32 ∨ s.arg1 = 0#32) →
    ∃ m, exec .dec s = .next { s with
        dec := { s.dec with anchor := 0#16, cursor := s.dec.cursor - s.dec.anchor.setWidth 17, count := 0#16 },
        mem := m, result := 0#64 } ∧
      bytesAt m s.dec.dstBase 2 (s.dec.cursor.toNat - s.dec.anchor.toNat - 2) =
        bytesAt s.mem s.dec.dstBase (s.dec.anchor.toNat + 2) (s.dec.cursor.toNat - s.dec.anchor.toNat - 2) ∧
      (∀ a : Nat, (∀ i, 2 ≤ i → i < s.dec.cursor.toNat - s.dec.anchor.toNat → a ≠ byteAddr s.dec.dstBase i) →
        m.readByte a = s.mem.readByte a)

/-- R163, R164: HUNTING. -/
def Obligations.ByteInHunting : Prop :=
  ∀ (w : Work) (b : Byte), w.dec.dstate = .hunting →
    (b = 0x7E#8 → stepByte b w = .going { w with dec := { w.dec with dstate := .frameStarted } }) ∧
    (b ≠ 0x7E#8 → stepByte b w = .going w)

/-- R165, R166, R167: FRAME_STARTED, with the overflow of R151. -/
def Obligations.ByteInFrameStarted : Prop :=
  ∀ (w : Work) (b : Byte), w.dec.dstate = .frameStarted →
    (b = 0x7E#8 → stepByte b w = .going w) ∧
    (b = 0x7D#8 → stepByte b w = .going { w with dec := { w.dec with dstate := .escapePending } }) ∧
    (b ≠ 0x7E#8 → b ≠ 0x7D#8 → w.dec.cursor.toNat < w.dec.dstCap.toNat →
      stepByte b w = .going
        { dec := { w.dec with cursor := w.dec.cursor + 1#17, dstate := .inMessage },
          mem := w.mem.writeByte (byteAddr w.dec.dstBase w.dec.cursor.toNat) b }) ∧
    (b ≠ 0x7E#8 → b ≠ 0x7D#8 → w.dec.dstCap.toNat ≤ w.dec.cursor.toNat →
      stepByte b w = .overflow { w with dec := { w.dec with ovf := true } })

/-- R168, R169, R170: IN_MESSAGE, with the overflow of R151. A FLAG writes the two length bytes at `ANCHOR`, low byte first, and nothing else. -/
def Obligations.ByteInMessage : Prop :=
  ∀ (w : Work) (b : Byte), w.dec.dstate = .inMessage →
    (b = 0x7E#8 →
      ∃ m, stepByte b w = .going
          { dec := { w.dec with
              count := w.dec.count + 1#16, anchor := w.dec.cursor.setWidth 16, cursor := w.dec.cursor + 2#17, dstate := .frameStarted },
            mem := m } ∧
        m.readByte (byteAddr w.dec.dstBase w.dec.anchor.toNat) =
          (w.dec.cursor - w.dec.anchor.setWidth 17 - 2#17).extractLsb' 0 8 ∧
        m.readByte (byteAddr w.dec.dstBase (w.dec.anchor.toNat + 1)) =
          (w.dec.cursor - w.dec.anchor.setWidth 17 - 2#17).extractLsb' 8 8 ∧
        (∀ a : Nat, a ≠ byteAddr w.dec.dstBase w.dec.anchor.toNat → a ≠ byteAddr w.dec.dstBase (w.dec.anchor.toNat + 1) →
          m.readByte a = w.mem.readByte a)) ∧
    (b = 0x7D#8 → stepByte b w = .going { w with dec := { w.dec with dstate := .escapePending } }) ∧
    (b ≠ 0x7E#8 → b ≠ 0x7D#8 → w.dec.cursor.toNat < w.dec.dstCap.toNat →
      stepByte b w = .going
        { dec := { w.dec with cursor := w.dec.cursor + 1#17 },
          mem := w.mem.writeByte (byteAddr w.dec.dstBase w.dec.cursor.toNat) b }) ∧
    (b ≠ 0x7E#8 → b ≠ 0x7D#8 → w.dec.dstCap.toNat ≤ w.dec.cursor.toNat →
      stepByte b w = .overflow { w with dec := { w.dec with ovf := true } })

/-- R171, R172: ESCAPE_PENDING, with the overflow of R151. -/
def Obligations.ByteInEscapePending : Prop :=
  ∀ (w : Work) (b : Byte), w.dec.dstate = .escapePending →
    (b = 0x7E#8 → stepByte b w = .going
      { w with dec := { w.dec with cursor := w.dec.anchor.setWidth 17 + 2#17, dstate := .frameStarted } }) ∧
    (b ≠ 0x7E#8 → w.dec.cursor.toNat < w.dec.dstCap.toNat →
      stepByte b w = .going
        { dec := { w.dec with cursor := w.dec.cursor + 1#17, dstate := .inMessage },
          mem := w.mem.writeByte (byteAddr w.dec.dstBase w.dec.cursor.toNat) (b ^^^ 0x20#8) }) ∧
    (b ≠ 0x7E#8 → w.dec.dstCap.toNat ≤ w.dec.cursor.toNat →
      stepByte b w = .overflow { w with dec := { w.dec with ovf := true } })

/-- R162: with its checks passed and input present, a DEC relocates, clears `COUNT`, and feeds its source bytes one by one, in address order, to the
byte machine; it returns `COUNT`, or -3 at the first overflow. (The source shares no byte with the destination buffer.) -/
def Obligations.DecFeedsItsSourceBytes : Prop :=
  ∀ s : State, s.dec.ready → s.dec.Inv → s.arg0 ≠ 0#32 → s.arg1 ≠ 0#32 →
    apart s.arg0 s.arg1.toNat s.dec.dstBase s.dec.dstCap.toNat →
    (∀ w, feedBytes s.sourceBytes s.work.begin = .going w →
      exec .dec s = .next { s with dec := w.dec, mem := w.mem, result := (w.dec.count.setWidth 32 : BitVec 32).signExtend 64 }) ∧
    (∀ w, feedBytes s.sourceBytes s.work.begin = .overflow w →
      exec .dec s = .next { s with dec := w.dec, mem := w.mem, result := -3#64 }) ∧
    (∃ t, exec .dec s = .next t)

/-- R175, R104, R27: every DEC completes; it leaves every byte outside `DST_BASE + [0, DST_CAP)` alone, the destination itself, and every register,
flag and stream but its own. -/
def Obligations.DecWritesOnlyTheDestination : Prop :=
  ∀ s : State, s.dec.Inv →
    ∃ t, exec .dec s = .next t ∧ t = { s with dec := t.dec, mem := t.mem, result := t.result } ∧
      t.dec.dstBase = s.dec.dstBase ∧ t.dec.dstCap = s.dec.dstCap ∧ t.dec.dstValid = s.dec.dstValid ∧
      ∀ a : Nat, (∀ i, i < s.dec.dstCap.toNat → a ≠ byteAddr s.dec.dstBase i) → t.mem.readByte a = s.mem.readByte a

/-- R175: no byte a DEC feeds overwrites a retired record: what lies below `ANCHOR` reads as before. -/
def Obligations.RetiredRecordsAreNotOverwritten : Prop :=
  ∀ (w : Work) (b : Byte), w.dec.Inv →
    ∀ i, i < w.dec.anchor.toNat →
      (stepByte b w).work.mem.readByte (byteAddr w.dec.dstBase i) = w.mem.readByte (byteAddr w.dec.dstBase i) ∧
      w.dec.anchor.toNat ≤ (stepByte b w).work.dec.anchor.toNat

/-- R31, R152, R205: a DEC returns -3 exactly when it leaves `OVF` set, provided it had a destination with room; the records it completed stay
intact, and every later DEC returns -3 and changes nothing, whatever its source, until a DEC_INIT. -/
def Obligations.OverflowIsStickyUntilDecInit : Prop :=
  ∀ s t : State, s.dec.ready → s.dec.Inv → exec .dec s = .next t →
    (t.dec.ovf = true ↔ t.result = -3#64) ∧
    (t.dec.ovf = true →
      ∀ u : State, u.dec = t.dec → exec .dec u = .next { u with result := -3#64 } ∧
        (u.arg1.toNat ≤ 0xFFFF → ∃ v, exec .decInit u = .next v ∧ v.dec.ovf = false ∧ v.dec.dstate = .hunting))

/-- R86, R152, R179: after every DEC whose checks passed, `DST_BASE + [0, ANCHOR)` holds exactly `COUNT` records, densely packed from offset 0, each
of length 1 to `DST_CAP - 2`; when it did not overflow, `RESULT` is that count. -/
def Obligations.DecLeavesWholeRecords : Prop :=
  ∀ s t : State, s.dec.ready → s.dec.Inv → exec .dec s = .next t →
    walkEnd t.mem t.dec.dstBase t.dec.count.toNat 0 = t.dec.anchor.toNat ∧
    (∀ r ∈ t.work.records, 1 ≤ r.length ∧ r.length + 2 ≤ t.dec.dstCap.toNat) ∧
    t.work.records.length = t.dec.count.toNat ∧
    (t.dec.ovf = false → t.result.toNat = t.dec.count.toNat)

/-- R153: from FRAME_STARTED with the length slot at offset `a`, a message of `L` >= 1 payload bytes completes without overflow exactly when
`a + 2 + L <= DST_CAP`, and a fragment of `f` bytes that is dropped later needs the same room while it is received. -/
def Obligations.MessageFitsExactlyWhenRoom : Prop :=
  ∀ (w : Work) (payload : List Byte), w.dec.Inv → w.dec.dstate = .frameStarted → payload ≠ [] →
    ((∃ w', feedBytes (payload.flatMap wireBytes ++ [0x7E#8]) w = .going w') ↔
      w.dec.anchor.toNat + 2 + payload.length ≤ w.dec.dstCap.toNat) ∧
    ((∃ w', feedBytes (payload.flatMap wireBytes) w = .going w') ↔
      w.dec.anchor.toNat + 2 + payload.length ≤ w.dec.dstCap.toNat) ∧
    (∀ w', feedBytes (payload.flatMap wireBytes ++ [0x7E#8]) w = .going w' →
      w'.dec.count = w.dec.count + 1#16 ∧ w'.dec.anchor.toNat = w.dec.anchor.toNat + 2 + payload.length ∧
      bytesAt w'.mem w.dec.dstBase w.dec.anchor.toNat (payload.length + 2) = recordBytes payload)

/-- R178: a DEC of the COMPLETE encoding of a non-empty `S` that fits returns 1 and leaves exactly the record of `S`, from HUNTING and FRAME_STARTED;
from ESCAPE_PENDING the leading FLAG first aborts the fragment; from IN_MESSAGE it first completes the partial message, and the DEC returns 2
where both records fit. -/
def Obligations.SingleFrameRoundTrip : Prop :=
  ∀ (s : State) (S : List Byte), S ≠ [] → S.length + 2 ≤ s.dec.dstCap.toNat → s.dec.ready → s.dec.Inv → s.arg0 ≠ 0#32 →
    s.sourceBytes = frame .complete S → apart s.arg0 s.arg1.toNat s.dec.dstBase s.dec.dstCap.toNat →
    (s.dec.dstate ≠ .inMessage →
      ∃ t, exec .dec s = .next t ∧ t.result = 1#64 ∧ t.work.records = [S] ∧ t.dec.dstate = .frameStarted ∧
        bytesAt t.mem s.dec.dstBase 0 (S.length + 2) = recordBytes S ∧ t.dec.anchor.toNat = S.length + 2 ∧ t.dec.ovf = false) ∧
    (s.dec.dstate = .inMessage → s.work.partialPayload.length + 2 + S.length + 2 ≤ s.dec.dstCap.toNat →
      ∃ t, exec .dec s = .next t ∧ t.result = 2#64 ∧ t.work.records = [s.work.partialPayload, S] ∧ t.dec.dstate = .frameStarted)

/-- R129: ENC COMPLETE of a non-empty source of at most 65533 bytes, then a DEC_INIT with room for it, then a DEC of the `k` bytes ENC wrote, return
`k`, 0 and 1 and leave one record holding the source. The three regions share no byte. -/
def Obligations.EncodeThenDecodeIsIdentity : Prop :=
  ∀ (s : State) (base cap : Word),
    s.arg0 ≠ 0#32 → s.arg1 ≠ 0#32 → s.arg2 ≠ 0#32 → base ≠ 0#32 → s.arg1.toNat ≤ 65533 →
    s.arg1.toNat + 2 ≤ cap.toNat → cap.toNat ≤ 0xFFFF →
    apart s.arg0 s.arg1.toNat s.arg2 (2 * s.arg1.toNat + 2) → apart s.arg2 (2 * s.arg1.toNat + 2) base cap.toNat →
    ∃ s₁ s₂ s₃, exec .encComplete s = .next s₁ ∧
      exec .decInit { s₁ with arg0 := base, arg1 := cap } = .next s₂ ∧
      exec .dec { s₂ with arg0 := s.arg2, arg1 := BitVec.ofNat 32 s₁.result.toNat } = .next s₃ ∧
      s₃.result = 1#64 ∧ s₃.work.records = [s.sourceBytes] ∧
      bytesAt s₃.mem base 0 (s.arg1.toNat + 2) = recordBytes s.sourceBytes

/-- R179, R171 (property 4 of the source): an unfinished fragment that an ESCAPE and a FLAG abort, then a valid frame, give exactly one message, the
valid one. With an empty fragment this is `FLAG, ESCAPE, FLAG, <valid frame>`. -/
def Obligations.AbortedFragmentIsDropped : Prop :=
  ∀ (s : State) (fragment S : List Byte), S ≠ [] → S.length + 2 ≤ s.dec.dstCap.toNat →
    fragment.length + 2 ≤ s.dec.dstCap.toNat → s.dec.ready → s.dec.Inv →
    (s.dec.dstate = .hunting ∨ s.dec.dstate = .frameStarted) → s.arg0 ≠ 0#32 →
    s.sourceBytes = 0x7E#8 :: (fragment.flatMap wireBytes ++ [0x7D#8, 0x7E#8] ++ frame .complete S) →
    apart s.arg0 s.arg1.toNat s.dec.dstBase s.dec.dstCap.toNat →
    ∃ t, exec .dec s = .next t ∧ t.result = 1#64 ∧ t.work.records = [S]

/-- R177: a byte string fed as one DEC that does not overflow, or as DECs of consecutive pieces of it, gives the same messages in the same order, the
same final `DSTATE` and the same partial payload, and the pieces do not overflow either. (The source region ends at or below the top of memory,
so that no later piece starts at the absent pointer 0, and shares no byte with the destination buffer.) -/
def Obligations.ChunkedDeliveryAgrees : Prop :=
  ∀ (s t : State) (pieces : List Nat), s.dec.ready → s.dec.Inv → s.arg0 ≠ 0#32 → s.arg1 ≠ 0#32 →
    pieces.sum = s.arg1.toNat → s.arg0.toNat + s.arg1.toNat ≤ 2 ^ 32 →
    apart s.arg0 s.arg1.toNat s.dec.dstBase s.dec.dstCap.toNat →
    exec .dec s = .next t → t.dec.ovf = false →
    ∃ u, decPieces s.arg0 pieces s = some (t.work.records, u) ∧
      u.dec.dstate = t.dec.dstate ∧ u.work.partialPayload = t.work.partialPayload ∧ u.dec.ovf = false

/-- R223: a DEC_INIT in mid-stream discards the partial message, and a valid frame decodes correctly afterwards, whatever the decoder's state was
before, reachable or not. -/
def Obligations.DecInitRecoversFromAnyState : Prop :=
  ∀ (s : State) (src : Word) (S : List Byte), S ≠ [] → s.arg0 ≠ 0#32 → s.arg1.toNat ≤ 0xFFFF → S.length + 2 ≤ s.arg1.toNat →
    src ≠ 0#32 → bytesAt s.mem src 0 (frame .complete S).length = frame .complete S →
    apart src (frame .complete S).length s.arg0 s.arg1.toNat →
    ∃ t u, exec .decInit s = .next t ∧
      exec .dec { t with arg0 := src, arg1 := BitVec.ofNat 32 (frame .complete S).length } = .next u ∧
      u.result = 1#64 ∧ u.work.records = [S]

/-! ### Invariants -/

/-- R32: every step keeps the decoder's invariants, whatever the host does. -/
def Obligations.StepKeepsDecoderInvariant : Prop :=
  ∀ s t : State, s.dec.Inv → step s = .next t → t.dec.Inv

/-- R32: the decoder's invariants hold after reset, and after every DEC_INIT, whatever the state before it. -/
def Obligations.ResetAndDecInitMeetDecoderInvariant : Prop :=
  State.reset.dec.Inv ∧ ∀ s : State, s.arg1.toNat ≤ 0xFFFF → ∃ t, exec .decInit s = .next t ∧ t.dec.Inv

/-- R162, R30: `COUNT` never wraps: every step keeps `3 * COUNT <= ANCHOR`, and with it the bound 21845. -/
def Obligations.CountNeverWraps : Prop :=
  State.reset.dec.CountBound ∧
  ∀ s t : State, s.dec.Inv → s.dec.CountBound → step s = .next t → t.dec.CountBound ∧ t.dec.count.toNat ≤ 21845

/-- R188: every step keeps "`INIT` = 0 implies `HIGH` = 0, `LOW` = 0 and `BASELINE` = 0" for every instance; it holds after reset. Where it holds, a
fresh instance has `V` = 0 and its first SEQ_EXTEND returns exactly `raw`. -/
def Obligations.StreamsStayFreshUntilInitialised : Prop :=
  State.reset.StreamsInv ∧ (∀ s t : State, s.StreamsInv → step s = .next t → t.StreamsInv) ∧
  ∀ (s : State) (id raw : Byte), s.StreamsInv → (s.stream id).init = false →
    ((s.stream id).high ++ (s.stream id).low : BitVec 64) = 0#64 ∧
    ∃ t, exec (.seqExtend id raw) s = .next t ∧ t.result = raw.setWidth 64

/-- The model's own invariant (log 1): buffer memory keeps its canonical form under every step, and has it at reset. -/
def Obligations.StepKeepsMemoryCanonical : Prop :=
  State.reset.mem.wf = true ∧ ∀ s t : State, s.mem.wf = true → step s = .next t → t.mem.wf = true

/-! ### The sequence extender -/

/-- R181: SEQ_EXTEND, on a fresh instance and on an initialised one, with and without a wrap. -/
def Obligations.SeqExtendResult : Prop :=
  ∀ (s : State) (id raw : Byte),
    ((s.stream id).init = false →
      exec (.seqExtend id raw) s = .next { s.setStream id
        { init := true, high := (s.stream id).high, low := raw, baseline := raw } with result := (s.stream id).high ++ raw }) ∧
    ((s.stream id).init = true → raw.toNat < (s.stream id).low.toNat →
      exec (.seqExtend id raw) s = .next { s.setStream id
        { init := true, high := (s.stream id).high + 1#56, low := raw, baseline := (s.stream id).baseline }
        with result := ((s.stream id).high + 1#56) ++ raw }) ∧
    ((s.stream id).init = true → (s.stream id).low.toNat ≤ raw.toNat →
      exec (.seqExtend id raw) s = .next { s.setStream id
        { init := true, high := (s.stream id).high, low := raw, baseline := (s.stream id).baseline }
        with result := (s.stream id).high ++ raw })

/-- R183: SEQ_INCREMENT: the 64-bit counter `HIGH ++ LOW` advances by one modulo 2^64 and is returned; `RAW` is ignored, `BASELINE` kept. -/
def Obligations.SeqIncrementResult : Prop :=
  ∀ (s : State) (id raw : Byte), ∃ x : Stream,
    exec (.seqIncrement id raw) s = .next { s.setStream id x with result := x.high ++ x.low } ∧
    x.init = true ∧ x.baseline = (s.stream id).baseline ∧
    x.high.toNat * 256 + x.low.toNat = ((s.stream id).high.toNat * 256 + (s.stream id).low.toNat + 1) % 2 ^ 64

/-- R185: SEQ_IS_EMPTY returns 1 when `INIT` = 0, else 0, and changes nothing but `RESULT`. So it returns 1 after reset and after SEQ_RESET, and 0
after any SEQ_EXTEND or SEQ_INCREMENT, whatever id that returned. -/
def Obligations.SeqIsEmptyResult : Prop :=
  ∀ (s : State) (id : Byte),
    ((s.stream id).init = false → exec (.seqIsEmpty id) s = .next { s with result := 1#64 }) ∧
    ((s.stream id).init = true → exec (.seqIsEmpty id) s = .next { s with result := 0#64 }) ∧
    exec (.seqIsEmpty id) State.reset = .next { State.reset with result := 1#64 } ∧
    (∀ t, exec (.seqReset id) s = .next t → exec (.seqIsEmpty id) t = .next { t with result := 1#64 }) ∧
    (∀ raw t, exec (.seqExtend id raw) s = .next t ∨ exec (.seqIncrement id raw) s = .next t →
      exec (.seqIsEmpty id) t = .next { t with result := 0#64 })

/-- R187: SEQ_RESET makes the instance what it is after reset, and returns 0. -/
def Obligations.SeqResetResult : Prop :=
  ∀ (s : State) (id : Byte),
    exec (.seqReset id) s = .next { s.setStream id { init := false, high := 0#56, low := 0#8, baseline := 0#8 } with result := 0#64 } ∧
    ∀ t, exec (.seqReset id) s = .next t → t.stream id = State.reset.stream id

/-- R34: a command on `S[id]` writes only `S[id]`: every other instance is as before. -/
def Obligations.StreamsAreIndependent : Prop :=
  ∀ (s : State) (id raw j : Byte), j ≠ id →
    ∀ i ∈ [Instr.seqExtend id raw, .seqIncrement id raw, .seqIsEmpty id, .seqReset id],
      ∃ t, exec i s = .next t ∧ t.stream j = s.stream j ∧
        t = { s with streams := t.streams, result := t.result }

/-- R35: after SEQ_EXTEND and after SEQ_INCREMENT the stream's `V = HIGH ++ LOW` is the id returned, whichever was used before. -/
def Obligations.StreamValueIsTheLastId : Prop :=
  ∀ (s : State) (id raw : Byte),
    (∃ t, exec (.seqExtend id raw) s = .next t ∧ t.result = (t.stream id).high ++ (t.stream id).low) ∧
    (∃ t, exec (.seqIncrement id raw) s = .next t ∧ t.result = (t.stream id).high ++ (t.stream id).low ∧
      t.result = ((s.stream id).high ++ (s.stream id).low : BitVec 64) + 1#64)

/-- R182, R184: on an initialised instance the id advances by `(raw - LOW) mod 256`, neither more nor less, modulo 2^64: a repeat returns the same id,
a gap that is a multiple of 256 a duplicate, and any other gap is taken modulo 256. -/
def Obligations.ExtendAdvancesByTheByteDifference : Prop :=
  ∀ (s : State) (id raw : Byte), (s.stream id).init = true →
    ∃ t, exec (.seqExtend id raw) s = .next t ∧
      t.result = ((s.stream id).high ++ (s.stream id).low : BitVec 64) + (raw - (s.stream id).low).setWidth 64

/-- R182: "Whatever the input, the returned ids never decrease, until `HIGH` wraps at 2^56." -/
def Obligations.ExtendedIdsNeverDecrease : Prop :=
  ∀ (s : State) (id raw : Byte), (s.stream id).init = true →
    ∃ t, exec (.seqExtend id raw) s = .next t ∧
      (((s.stream id).high ++ (s.stream id).low : BitVec 64).toNat ≤ t.result.toNat ∨
        ((s.stream id).high.toNat = 2 ^ 56 - 1 ∧ raw.toNat < (s.stream id).low.toNat))

/-- R182 (wrap correctness): true sample numbers `t1 < t2 < …` with every gap in 1..255, fed modulo 256 to a fresh instance, are returned exactly up
to the constant offset `256 * floor(t1 / 256)`. -/
def Obligations.ExtendTracksTrueSampleNumbers : Prop :=
  ∀ (s : State) (id : Byte) (t₁ : Nat) (ts : List Nat), s.stream id = Stream.fresh →
    (t₁ :: ts).IsChain (fun a b => a < b ∧ b - a ≤ 255) → (∀ t ∈ t₁ :: ts, t < 2 ^ 64) →
    ∃ u, runCommands ((t₁ :: ts).map fun t => .seqExtend id (BitVec.ofNat 8 t)) s =
      some ((t₁ :: ts).map fun t => BitVec.ofNat 64 (t - 256 * (t₁ / 256)), u)

/-- R183 (property 8 of the source): N consecutive SEQ_INCREMENTs on a fresh instance return 1, 2, …, N, whatever the ignored `RAW` fields. -/
def Obligations.IncrementsCountFromOne : Prop :=
  ∀ (s : State) (id : Byte) (raws : List Byte), s.stream id = Stream.fresh →
    ∃ u, runCommands (raws.map fun raw => .seqIncrement id raw) s =
      some ((List.range raws.length).map fun k => BitVec.ofNat 64 (k + 1), u)
end

