-- ==== Sys2Proof/Laws/Memory.lean ====
section
/-! SUPPORT. Buffer memory: what one read and one write do, that every write keeps the canonical form, and the same for runs of writes. -/

namespace Sys2Proof.Machine

/-! ### Addresses -/

theorem byteAddr_lt (base : Word) (i : Nat) : byteAddr base i < 2 ^ Config.addrW :=
  (base + BitVec.ofNat 32 i).isLt

theorem byteAddr_eq (base : Word) (i : Nat) : byteAddr base i = (base.toNat + i) % 2 ^ 32 := by
  simp [byteAddr, BitVec.toNat_add]

/-- Within 2^32 bytes from one base, different offsets are different bytes (R51). -/
theorem byteAddr_inj {base : Word} {i j : Nat} (hi : i < 2 ^ 32) (hj : j < 2 ^ 32)
    (h : byteAddr base i = byteAddr base j) : i = j := by
  have hb := base.isLt
  rw [byteAddr_eq, byteAddr_eq] at h
  omega

theorem byteAddr_ne {base : Word} {i j : Nat} (hi : i < 2 ^ 32) (hj : j < 2 ^ 32) (h : i ≠ j) :
    byteAddr base i ≠ byteAddr base j :=
  fun e => h (byteAddr_inj hi hj e)

/-- An offset from an address reached by an offset (R51). -/
theorem byteAddr_add (base : Word) (i j : Nat) : byteAddr (base + BitVec.ofNat 32 i) j = byteAddr base (i + j) := by
  simp [byteAddr, BitVec.ofNat_add, BitVec.add_assoc]

/-! ### One byte -/

theorem Memory.readByte_insertByte_same (a : Nat) (v : Byte) (m : Memory) : (m.insertByte a v).readByte a = v := by
  induction m with
  | nil => simp [Memory.insertByte, Memory.readByte]
  | cons c rest ih =>
    obtain ⟨b, w⟩ := c
    unfold Memory.insertByte
    split
    · simp [Memory.readByte]
    · split
      · simp [Memory.readByte]
      · rename_i h
        simp [Memory.readByte, h, ih]

theorem Memory.readByte_insertByte_other {a c : Nat} (h : c ≠ a) (v : Byte) (m : Memory) :
    (m.insertByte a v).readByte c = m.readByte c := by
  induction m with
  | nil => simp [Memory.insertByte, Memory.readByte, h]
  | cons e rest ih =>
    obtain ⟨b, w⟩ := e
    unfold Memory.insertByte
    split
    · simp [Memory.readByte, h]
    · split
      · rename_i hab
        subst hab
        simp [Memory.readByte, h]
      · simp [Memory.readByte, ih]

theorem Memory.readByte_filter_same (a : Nat) (m : Memory) :
    Memory.readByte (m.filter (fun c => c.1 != a)) a = Config.launchByte := by
  induction m with
  | nil => rfl
  | cons e rest ih =>
    obtain ⟨b, w⟩ := e
    by_cases h : b = a
    · simp [h, ih]
    · simp [h, Memory.readByte, ih, Ne.symm h]

theorem Memory.readByte_filter_other {a c : Nat} (h : c ≠ a) (m : Memory) :
    Memory.readByte (m.filter (fun e => e.1 != a)) c = m.readByte c := by
  induction m with
  | nil => rfl
  | cons e rest ih =>
    obtain ⟨b, w⟩ := e
    by_cases hb : b = a
    · subst hb
      simp [Memory.readByte, ih, h]
    · simp [hb, Memory.readByte, ih]

/-- A read of the byte just written gives the value written (R60: "a byte reads back as last written"). -/
@[simp] theorem Memory.readByte_writeByte_same (m : Memory) (a : Nat) (v : Byte) : (m.writeByte a v).readByte a = v := by
  unfold Memory.writeByte
  split
  · rename_i h
    rw [Memory.readByte_filter_same, h]
  · exact Memory.readByte_insertByte_same a v m

/-- A write leaves every other byte alone. -/
theorem Memory.readByte_writeByte_other {a c : Nat} (h : c ≠ a) (m : Memory) (v : Byte) :
    (m.writeByte a v).readByte c = m.readByte c := by
  unfold Memory.writeByte
  split
  · exact Memory.readByte_filter_other h m
  · exact Memory.readByte_insertByte_other h v m

/-- Everything one write does to what is read. -/
theorem Memory.readByte_writeByte (m : Memory) (a c : Nat) (v : Byte) :
    (m.writeByte a v).readByte c = if c = a then v else m.readByte c := by
  split
  · rename_i h
    rw [h, Memory.readByte_writeByte_same]
  · rename_i h
    exact Memory.readByte_writeByte_other h m v

/-! ### The canonical form -/

theorem Memory.wf_cons {a : Nat} {v : Byte} {rest : Memory} :
    Memory.wf ((a, v) :: rest) = true ↔
      a < 2 ^ Config.addrW ∧ v ≠ Config.launchByte ∧ (∀ c ∈ rest, a < c.1) ∧ Memory.wf rest = true := by
  simp [Memory.wf, and_assoc]

theorem Memory.mem_insertByte {a : Nat} {v : Byte} {m : Memory} {c : Host.Cell} (h : c ∈ m.insertByte a v) :
    c = (a, v) ∨ c ∈ m := by
  induction m with
  | nil => simpa [Memory.insertByte] using h
  | cons e rest ih =>
    obtain ⟨b, w⟩ := e
    unfold Memory.insertByte at h
    split at h
    · simpa using h
    · split at h
      · rcases List.mem_cons.mp h with h | h
        · exact .inl h
        · exact .inr (List.mem_cons_of_mem _ h)
      · rcases List.mem_cons.mp h with h | h
        · exact .inr (h ▸ List.mem_cons_self)
        · rcases ih h with h | h
          · exact .inl h
          · exact .inr (List.mem_cons_of_mem _ h)

theorem Memory.insertByte_wf {a : Nat} {v : Byte} {m : Memory} (ha : a < 2 ^ Config.addrW) (hv : v ≠ Config.launchByte)
    (hm : m.wf = true) : (m.insertByte a v).wf = true := by
  induction m with
  | nil => simp [Memory.insertByte, Memory.wf, ha, hv]
  | cons e rest ih =>
    obtain ⟨b, w⟩ := e
    obtain ⟨hb, hw, hlt, hrest⟩ := Memory.wf_cons.mp hm
    unfold Memory.insertByte
    split
    · rename_i hab
      refine Memory.wf_cons.mpr ⟨ha, hv, fun c hc => ?_, hm⟩
      rcases List.mem_cons.mp hc with rfl | hc
      · exact hab
      · exact lt_trans hab (hlt c hc)
    · split
      · rename_i hab
        subst hab
        exact Memory.wf_cons.mpr ⟨ha, hv, hlt, hrest⟩
      · refine Memory.wf_cons.mpr ⟨hb, hw, fun c hc => ?_, ih hrest⟩
        rcases Memory.mem_insertByte hc with rfl | hc
        · change b < a
          omega
        · exact hlt c hc

theorem Memory.filter_wf {m : Memory} (p : Host.Cell → Bool) (hm : m.wf = true) : Memory.wf (m.filter p) = true := by
  induction m with
  | nil => rfl
  | cons e rest ih =>
    obtain ⟨b, w⟩ := e
    obtain ⟨hb, hw, hlt, hrest⟩ := Memory.wf_cons.mp hm
    by_cases h : p (b, w) = true
    · rw [List.filter_cons_of_pos h]
      exact Memory.wf_cons.mpr ⟨hb, hw, fun c hc => hlt c (List.mem_filter.mp hc).1, ih hrest⟩
    · rw [List.filter_cons_of_neg h]
      exact ih hrest

/-- Every write keeps the canonical form. -/
theorem Memory.writeByte_wf {m : Memory} {a : Nat} (ha : a < 2 ^ Config.addrW) (v : Byte) (hm : m.wf = true) :
    (m.writeByte a v).wf = true := by
  unfold Memory.writeByte
  split
  · exact Memory.filter_wf _ hm
  · rename_i hv
    exact Memory.insertByte_wf ha hv hm

theorem Memory.readByte_unlisted {m : Memory} {a : Nat} (h : ∀ c ∈ m, a ≠ c.1) : m.readByte a = Config.launchByte := by
  induction m with
  | nil => rfl
  | cons e rest ih =>
    obtain ⟨b, w⟩ := e
    have hne : a ≠ b := h (b, w) List.mem_cons_self
    simp only [Memory.readByte, if_neg hne]
    exact ih fun c hc => h c (List.mem_cons_of_mem _ hc)

/-- Two memories in canonical form that read alike are the same list. -/
theorem Memory.ext_of_wf {m m' : Memory} (hm : m.wf = true) (hm' : m'.wf = true)
    (h : ∀ a, m.readByte a = m'.readByte a) : m = m' := by
  induction m generalizing m' with
  | nil =>
    cases m' with
    | nil => rfl
    | cons e rest =>
      obtain ⟨b, w⟩ := e
      obtain ⟨-, hw, -, -⟩ := Memory.wf_cons.mp hm'
      have := h b
      simp [Memory.readByte] at this
      exact absurd this.symm hw
  | cons e rest ih =>
    obtain ⟨a, v⟩ := e
    obtain ⟨-, hv, hlt, hrest⟩ := Memory.wf_cons.mp hm
    cases m' with
    | nil =>
      have := h a
      simp [Memory.readByte] at this
      exact absurd this hv
    | cons e' rest' =>
      obtain ⟨b, w⟩ := e'
      obtain ⟨-, hw, hlt', hrest'⟩ := Memory.wf_cons.mp hm'
      have hab : a = b := by
        rcases lt_trichotomy a b with hlt₂ | heq | hgt
        · have hu : Memory.readByte ((b, w) :: rest') a = Config.launchByte :=
            Memory.readByte_unlisted fun c hc => by
              rcases List.mem_cons.mp hc with rfl | hc
              · exact Nat.ne_of_lt hlt₂
              · exact Nat.ne_of_lt (lt_trans hlt₂ (hlt' c hc))
          have := h a
          rw [hu] at this
          simp [Memory.readByte] at this
          exact absurd this hv
        · exact heq
        · have hu : Memory.readByte ((a, v) :: rest) b = Config.launchByte :=
            Memory.readByte_unlisted fun c hc => by
              rcases List.mem_cons.mp hc with rfl | hc
              · exact Nat.ne_of_lt hgt
              · exact Nat.ne_of_lt (lt_trans hgt (hlt c hc))
          have := h b
          rw [hu] at this
          simp [Memory.readByte] at this
          exact absurd this.symm hw
      subst hab
      have hvw : v = w := by simpa [Memory.readByte] using h a
      subst hvw
      congr 1
      refine ih hrest hrest' fun c => ?_
      by_cases hc : c = a
      · subst hc
        rw [Memory.readByte_unlisted fun e he => Nat.ne_of_lt (hlt e he),
          Memory.readByte_unlisted fun e he => Nat.ne_of_lt (hlt' e he)]
      · simpa [Memory.readByte, hc] using h c

/-! ### Writes by base and offset -/

theorem memWrite_wf {m : Memory} (base : Word) (i : Nat) (v : Byte) (hm : m.wf = true) : (memWrite m base i v).wf = true :=
  Memory.writeByte_wf (byteAddr_lt base i) v hm

theorem memWriteAll_wf {m : Memory} (base : Word) (i : Nat) (vs : List Byte) (hm : m.wf = true) :
    (memWriteAll m base i vs).wf = true := by
  induction vs generalizing m i with
  | nil => exact hm
  | cons v rest ih => exact ih (i + 1) (memWrite_wf base i v hm)

/-- A run of writes leaves every byte outside its offsets alone. -/
theorem readByte_memWriteAll_outside (base : Word) (vs : List Byte) {m : Memory} {i a : Nat}
    (h : ∀ j, j < vs.length → a ≠ byteAddr base (i + j)) : (memWriteAll m base i vs).readByte a = m.readByte a := by
  induction vs generalizing m i with
  | nil => rfl
  | cons v rest ih =>
    have h0 : a ≠ byteAddr base i := h 0 (by simp)
    rw [memWriteAll, ih, memWrite, Memory.readByte_writeByte_other h0]
    intro j hj
    have := h (j + 1) (by simpa using hj)
    rwa [show i + (j + 1) = i + 1 + j by omega] at this

/-- A run of writes that does not wrap onto itself leaves its bytes in order. -/
theorem memRead_memWriteAll (base : Word) (vs : List Byte) {m : Memory} {i j : Nat} (hj : j < vs.length)
    (hlen : i + vs.length ≤ 2 ^ 32) : memRead (memWriteAll m base i vs) base (i + j) = vs[j] := by
  induction vs generalizing m i j with
  | nil => simp at hj
  | cons v rest ih =>
    simp only [List.length_cons] at hlen
    rw [memWriteAll]
    cases j with
    | zero =>
      have hout : ∀ j, j < rest.length → byteAddr base i ≠ byteAddr base (i + 1 + j) :=
        fun j hj => byteAddr_ne (by omega) (by omega) (by omega)
      calc (memWriteAll (memWrite m base i v) base (i + 1) rest).readByte (byteAddr base i)
          = (memWrite m base i v).readByte (byteAddr base i) := readByte_memWriteAll_outside base rest hout
        _ = v := Memory.readByte_writeByte_same m _ v
    | succ j =>
      rw [show i + (j + 1) = i + 1 + j by omega, ih (by simpa using hj) (by omega)]
      rfl

/-! ### Bytes of a region -/

@[simp] theorem bytesAt_length (m : Memory) (base : Word) (i n : Nat) : (bytesAt m base i n).length = n := by
  induction n generalizing i with
  | zero => rfl
  | succ n ih => simp [bytesAt, ih]

theorem bytesAt_getElem (m : Memory) (base : Word) (i n j : Nat) (h : j < (bytesAt m base i n).length) :
    (bytesAt m base i n)[j] = memRead m base (i + j) := by
  induction n generalizing i j with
  | zero => simp [bytesAt] at h
  | succ n ih =>
    cases j with
    | zero => simp [bytesAt]
    | succ j =>
      simp only [bytesAt, List.getElem_cons_succ]
      rw [ih, show i + 1 + j = i + (j + 1) by omega]

theorem bytesAt_append (m : Memory) (base : Word) (i n k : Nat) :
    bytesAt m base i (n + k) = bytesAt m base i n ++ bytesAt m base (i + n) k := by
  induction n generalizing i with
  | zero => simp [bytesAt]
  | succ n ih =>
    rw [show n + 1 + k = (n + k) + 1 by omega]
    simp [bytesAt, ih, show i + 1 + n = i + (n + 1) by omega]

theorem bytesAt_succ_last (m : Memory) (base : Word) (i n : Nat) :
    bytesAt m base i (n + 1) = bytesAt m base i n ++ [memRead m base (i + n)] := by
  rw [bytesAt_append]
  rfl

/-- Two memories that agree on a region's bytes hold the same list there. -/
theorem bytesAt_congr {m m' : Memory} {base base' : Word} {i i' n : Nat}
    (h : ∀ j, j < n → memRead m base (i + j) = memRead m' base' (i' + j)) : bytesAt m base i n = bytesAt m' base' i' n := by
  refine List.ext_getElem (by simp) fun j hj _ => ?_
  rw [bytesAt_getElem, bytesAt_getElem]
  exact h j (by simpa using hj)

/-- A region's bytes are those an offset further in, from a base moved by that offset. -/
theorem bytesAt_shift (m : Memory) (base : Word) (k i n : Nat) :
    bytesAt m (base + BitVec.ofNat 32 k) i n = bytesAt m base (k + i) n :=
  bytesAt_congr fun j _ => by rw [memRead, memRead, byteAddr_add, Nat.add_assoc]

/-- A run of writes leaves its list of bytes in memory. -/
theorem bytesAt_memWriteAll (base : Word) (vs : List Byte) (m : Memory) (i : Nat) (hlen : i + vs.length ≤ 2 ^ 32) :
    bytesAt (memWriteAll m base i vs) base i vs.length = vs := by
  refine List.ext_getElem (by simp) fun j hj _ => ?_
  rw [bytesAt_getElem]
  exact memRead_memWriteAll base vs (by simpa using hj) hlen

theorem memWriteAll_append (base : Word) (vs ws : List Byte) (m : Memory) (i : Nat) :
    memWriteAll m base i (vs ++ ws) = memWriteAll (memWriteAll m base i vs) base (i + vs.length) ws := by
  induction vs generalizing m i with
  | nil => rfl
  | cons v rest ih => simp [memWriteAll, ih, show i + (rest.length + 1) = i + 1 + rest.length by omega]

end Sys2Proof.Machine
end

