-- ==== Sys2Proof/Laws/State.lean ====
section
/-! SUPPORT. What each named update of the state leaves in each field: one lemma per field and update, true by rfl. -/

namespace Sys2Proof.Machine

/-! ### returning -/

@[simp] theorem State.returning_arg0 (s : State) (v : DWord) : (s.returning v).arg0 = s.arg0 := rfl
@[simp] theorem State.returning_arg1 (s : State) (v : DWord) : (s.returning v).arg1 = s.arg1 := rfl
@[simp] theorem State.returning_arg2 (s : State) (v : DWord) : (s.returning v).arg2 = s.arg2 := rfl
@[simp] theorem State.returning_result (s : State) (v : DWord) : (s.returning v).result = v := rfl
@[simp] theorem State.returning_seqSel (s : State) (v : DWord) : (s.returning v).seqSel = s.seqSel := rfl
@[simp] theorem State.returning_errCmd (s : State) (v : DWord) : (s.returning v).errCmd = s.errCmd := rfl
@[simp] theorem State.returning_dec (s : State) (v : DWord) : (s.returning v).dec = s.dec := rfl
@[simp] theorem State.returning_streams (s : State) (v : DWord) : (s.returning v).streams = s.streams := rfl
@[simp] theorem State.returning_mem (s : State) (v : DWord) : (s.returning v).mem = s.mem := rfl
@[simp] theorem State.returning_host (s : State) (v : DWord) : (s.returning v).host = s.host := rfl
@[simp] theorem State.returning_observed (s : State) (v : DWord) : (s.returning v).observed = s.observed := rfl

/-! ### refuse -/

@[simp] theorem State.refuse_arg0 (s : State) : (s.refuse).arg0 = s.arg0 := rfl
@[simp] theorem State.refuse_arg1 (s : State) : (s.refuse).arg1 = s.arg1 := rfl
@[simp] theorem State.refuse_arg2 (s : State) : (s.refuse).arg2 = s.arg2 := rfl
@[simp] theorem State.refuse_result (s : State) : (s.refuse).result = s.result := rfl
@[simp] theorem State.refuse_seqSel (s : State) : (s.refuse).seqSel = s.seqSel := rfl
@[simp] theorem State.refuse_errCmd (s : State) : (s.refuse).errCmd = true := rfl
@[simp] theorem State.refuse_dec (s : State) : (s.refuse).dec = s.dec := rfl
@[simp] theorem State.refuse_streams (s : State) : (s.refuse).streams = s.streams := rfl
@[simp] theorem State.refuse_mem (s : State) : (s.refuse).mem = s.mem := rfl
@[simp] theorem State.refuse_host (s : State) : (s.refuse).host = s.host := rfl
@[simp] theorem State.refuse_observed (s : State) : (s.refuse).observed = s.observed := rfl

/-! ### setStream -/

@[simp] theorem State.setStream_arg0 (s : State) (id : Byte) (x : Stream) : (s.setStream id x).arg0 = s.arg0 := rfl
@[simp] theorem State.setStream_arg1 (s : State) (id : Byte) (x : Stream) : (s.setStream id x).arg1 = s.arg1 := rfl
@[simp] theorem State.setStream_arg2 (s : State) (id : Byte) (x : Stream) : (s.setStream id x).arg2 = s.arg2 := rfl
@[simp] theorem State.setStream_result (s : State) (id : Byte) (x : Stream) : (s.setStream id x).result = s.result := rfl
@[simp] theorem State.setStream_seqSel (s : State) (id : Byte) (x : Stream) : (s.setStream id x).seqSel = s.seqSel := rfl
@[simp] theorem State.setStream_errCmd (s : State) (id : Byte) (x : Stream) : (s.setStream id x).errCmd = s.errCmd := rfl
@[simp] theorem State.setStream_dec (s : State) (id : Byte) (x : Stream) : (s.setStream id x).dec = s.dec := rfl
@[simp] theorem State.setStream_streams (s : State) (id : Byte) (x : Stream) : (s.setStream id x).streams = s.streams.set id.toNat x id.isLt := rfl
@[simp] theorem State.setStream_mem (s : State) (id : Byte) (x : Stream) : (s.setStream id x).mem = s.mem := rfl
@[simp] theorem State.setStream_host (s : State) (id : Byte) (x : Stream) : (s.setStream id x).host = s.host := rfl
@[simp] theorem State.setStream_observed (s : State) (id : Byte) (x : Stream) : (s.setStream id x).observed = s.observed := rfl

/-! ### withWork -/

@[simp] theorem State.withWork_arg0 (s : State) (w : Work) : (s.withWork w).arg0 = s.arg0 := rfl
@[simp] theorem State.withWork_arg1 (s : State) (w : Work) : (s.withWork w).arg1 = s.arg1 := rfl
@[simp] theorem State.withWork_arg2 (s : State) (w : Work) : (s.withWork w).arg2 = s.arg2 := rfl
@[simp] theorem State.withWork_result (s : State) (w : Work) : (s.withWork w).result = s.result := rfl
@[simp] theorem State.withWork_seqSel (s : State) (w : Work) : (s.withWork w).seqSel = s.seqSel := rfl
@[simp] theorem State.withWork_errCmd (s : State) (w : Work) : (s.withWork w).errCmd = s.errCmd := rfl
@[simp] theorem State.withWork_dec (s : State) (w : Work) : (s.withWork w).dec = w.dec := rfl
@[simp] theorem State.withWork_streams (s : State) (w : Work) : (s.withWork w).streams = s.streams := rfl
@[simp] theorem State.withWork_mem (s : State) (w : Work) : (s.withWork w).mem = w.mem := rfl
@[simp] theorem State.withWork_host (s : State) (w : Work) : (s.withWork w).host = s.host := rfl
@[simp] theorem State.withWork_observed (s : State) (w : Work) : (s.withWork w).observed = s.observed := rfl

/-! ### encoded -/

@[simp] theorem State.encoded_arg0 (s : State) (r : Memory × Nat) : (s.encoded r).arg0 = s.arg0 := rfl
@[simp] theorem State.encoded_arg1 (s : State) (r : Memory × Nat) : (s.encoded r).arg1 = s.arg1 := rfl
@[simp] theorem State.encoded_arg2 (s : State) (r : Memory × Nat) : (s.encoded r).arg2 = s.arg2 := rfl
@[simp] theorem State.encoded_result (s : State) (r : Memory × Nat) : (s.encoded r).result = BitVec.ofNat 64 r.2 := rfl
@[simp] theorem State.encoded_seqSel (s : State) (r : Memory × Nat) : (s.encoded r).seqSel = s.seqSel := rfl
@[simp] theorem State.encoded_errCmd (s : State) (r : Memory × Nat) : (s.encoded r).errCmd = s.errCmd := rfl
@[simp] theorem State.encoded_dec (s : State) (r : Memory × Nat) : (s.encoded r).dec = s.dec := rfl
@[simp] theorem State.encoded_streams (s : State) (r : Memory × Nat) : (s.encoded r).streams = s.streams := rfl
@[simp] theorem State.encoded_mem (s : State) (r : Memory × Nat) : (s.encoded r).mem = r.1 := rfl
@[simp] theorem State.encoded_host (s : State) (r : Memory × Nat) : (s.encoded r).host = s.host := rfl
@[simp] theorem State.encoded_observed (s : State) (r : Memory × Nat) : (s.encoded r).observed = s.observed := rfl

/-! ### withHost -/

@[simp] theorem State.withHost_arg0 (s : State) (rest : List HostAccess) : (s.withHost rest).arg0 = s.arg0 := rfl
@[simp] theorem State.withHost_arg1 (s : State) (rest : List HostAccess) : (s.withHost rest).arg1 = s.arg1 := rfl
@[simp] theorem State.withHost_arg2 (s : State) (rest : List HostAccess) : (s.withHost rest).arg2 = s.arg2 := rfl
@[simp] theorem State.withHost_result (s : State) (rest : List HostAccess) : (s.withHost rest).result = s.result := rfl
@[simp] theorem State.withHost_seqSel (s : State) (rest : List HostAccess) : (s.withHost rest).seqSel = s.seqSel := rfl
@[simp] theorem State.withHost_errCmd (s : State) (rest : List HostAccess) : (s.withHost rest).errCmd = s.errCmd := rfl
@[simp] theorem State.withHost_dec (s : State) (rest : List HostAccess) : (s.withHost rest).dec = s.dec := rfl
@[simp] theorem State.withHost_streams (s : State) (rest : List HostAccess) : (s.withHost rest).streams = s.streams := rfl
@[simp] theorem State.withHost_mem (s : State) (rest : List HostAccess) : (s.withHost rest).mem = s.mem := rfl
@[simp] theorem State.withHost_host (s : State) (rest : List HostAccess) : (s.withHost rest).host = rest := rfl
@[simp] theorem State.withHost_observed (s : State) (rest : List HostAccess) : (s.withHost rest).observed = s.observed := rfl

/-! ### observe -/

@[simp] theorem State.observe_arg0 (s : State) (o : Observation) : (s.observe o).arg0 = s.arg0 := rfl
@[simp] theorem State.observe_arg1 (s : State) (o : Observation) : (s.observe o).arg1 = s.arg1 := rfl
@[simp] theorem State.observe_arg2 (s : State) (o : Observation) : (s.observe o).arg2 = s.arg2 := rfl
@[simp] theorem State.observe_result (s : State) (o : Observation) : (s.observe o).result = s.result := rfl
@[simp] theorem State.observe_seqSel (s : State) (o : Observation) : (s.observe o).seqSel = s.seqSel := rfl
@[simp] theorem State.observe_errCmd (s : State) (o : Observation) : (s.observe o).errCmd = s.errCmd := rfl
@[simp] theorem State.observe_dec (s : State) (o : Observation) : (s.observe o).dec = s.dec := rfl
@[simp] theorem State.observe_streams (s : State) (o : Observation) : (s.observe o).streams = s.streams := rfl
@[simp] theorem State.observe_mem (s : State) (o : Observation) : (s.observe o).mem = s.mem := rfl
@[simp] theorem State.observe_host (s : State) (o : Observation) : (s.observe o).host = s.host := rfl
@[simp] theorem State.observe_observed (s : State) (o : Observation) : (s.observe o).observed = s.observed ++ [o] := rfl

/-! ### resetBlock -/

@[simp] theorem State.resetBlock_arg0 (s : State) : (s.resetBlock).arg0 = State.reset.arg0 := rfl
@[simp] theorem State.resetBlock_arg1 (s : State) : (s.resetBlock).arg1 = State.reset.arg1 := rfl
@[simp] theorem State.resetBlock_arg2 (s : State) : (s.resetBlock).arg2 = State.reset.arg2 := rfl
@[simp] theorem State.resetBlock_result (s : State) : (s.resetBlock).result = State.reset.result := rfl
@[simp] theorem State.resetBlock_seqSel (s : State) : (s.resetBlock).seqSel = State.reset.seqSel := rfl
@[simp] theorem State.resetBlock_errCmd (s : State) : (s.resetBlock).errCmd = State.reset.errCmd := rfl
@[simp] theorem State.resetBlock_dec (s : State) : (s.resetBlock).dec = State.reset.dec := rfl
@[simp] theorem State.resetBlock_streams (s : State) : (s.resetBlock).streams = State.reset.streams := rfl
@[simp] theorem State.resetBlock_mem (s : State) : (s.resetBlock).mem = s.mem := rfl
@[simp] theorem State.resetBlock_host (s : State) : (s.resetBlock).host = s.host := rfl
@[simp] theorem State.resetBlock_observed (s : State) : (s.resetBlock).observed = s.observed := rfl

/-! ### Streams -/

/-- `S[id] <- x` is read back (R33). -/
@[simp] theorem State.stream_setStream_same (s : State) (id : Byte) (x : Stream) : (s.setStream id x).stream id = x := by
  simp [State.stream, State.setStream]

/-- The instances are independent (R34). -/
theorem State.stream_setStream_other (s : State) {id j : Byte} (x : Stream) (h : j ≠ id) :
    (s.setStream id x).stream j = s.stream j := by
  have hn : id.toNat ≠ j.toNat := fun e => h (BitVec.eq_of_toNat_eq e.symm)
  simp [State.stream, State.setStream, hn]

/-- A stream depends on the streams alone. -/
theorem State.stream_congr {s t : State} (h : t.streams = s.streams) (id : Byte) : t.stream id = s.stream id := by
  simp [State.stream, h]

@[simp] theorem State.returning_stream (s : State) (v : DWord) (id : Byte) : (s.returning v).stream id = s.stream id := rfl
@[simp] theorem State.refuse_stream (s : State) (id : Byte) : s.refuse.stream id = s.stream id := rfl
@[simp] theorem State.withHost_stream (s : State) (h : List HostAccess) (id : Byte) : (s.withHost h).stream id = s.stream id := rfl
@[simp] theorem State.withWork_stream (s : State) (w : Work) (id : Byte) : (s.withWork w).stream id = s.stream id := rfl
@[simp] theorem State.observe_stream (s : State) (o : Observation) (id : Byte) : (s.observe o).stream id = s.stream id := rfl

/-- After reset every instance is fresh (R37). -/
@[simp] theorem State.reset_stream (id : Byte) : State.reset.stream id = Stream.fresh := by
  simp [State.stream, State.reset]

@[simp] theorem State.resetBlock_stream (s : State) (id : Byte) : s.resetBlock.stream id = Stream.fresh := State.reset_stream id

/-! ### Decoder state and memory as one -/

@[simp] theorem State.work_dec (s : State) : s.work.dec = s.dec := rfl
@[simp] theorem State.work_mem (s : State) : s.work.mem = s.mem := rfl
@[simp] theorem State.withWork_work (s : State) (w : Work) : (s.withWork w).work = w := rfl
@[simp] theorem State.withWork_self (s : State) : s.withWork s.work = s := rfl

end Sys2Proof.Machine
end

