-- ==== Sys2Proof/Laws/Dec.lean ====
section
/-! SUPPORT. What the decoder's primitives, its byte machine and its loop do: one lemma per operation, the invariants of 10_state.md R32, and where
buffer memory is written (42_framer_decode.md R151 to R175). -/

namespace Sys2Proof.Machine

/-! ### Numbers of the decoder's fields -/

theorem Decoder.cursor_lt (d : Decoder) : d.cursor.toNat < 131072 := d.cursor.isLt
theorem Decoder.anchor_lt (d : Decoder) : d.anchor.toNat < 65536 := d.anchor.isLt
theorem Decoder.dstCap_lt (d : Decoder) : d.dstCap.toNat < 65536 := d.dstCap.isLt

theorem Decoder.anchor17 (d : Decoder) : (d.anchor.setWidth 17).toNat = d.anchor.toNat := by
  have := d.anchor_lt
  simp only [BitVec.toNat_setWidth]
  omega

/-- `m = CURSOR - ANCHOR` of R160, where R32 (a) holds. -/
theorem Decoder.pending_toNat {d : Decoder} (h : d.Inv) : d.pending.toNat = d.cursor.toNat - d.anchor.toNat := by
  have h1 := d.anchor_lt
  have h2 := d.cursor_lt
  have h3 := h.1
  rw [Decoder.pending, BitVec.toNat_sub, d.anchor17]
  omega

/-- The length `complete()` writes (R168), where the message fits. -/
theorem Decoder.messageLength_toNat {d : Decoder} (h : d.Inv) (hm : d.dstate = .inMessage) :
    d.messageLength.toNat = d.cursor.toNat - d.anchor.toNat - 2 := by
  have h1 := d.anchor_lt
  have h2 := d.cursor_lt
  have h3 := h.2.2.1 hm
  have h4 := d.dstCap_lt
  have h5 : (2#17).toNat = 2 := rfl
  rw [Decoder.messageLength, BitVec.toNat_setWidth, BitVec.toNat_sub, BitVec.toNat_sub, d.anchor17, h5]
  omega

theorem Decoder.full_iff (d : Decoder) : d.full = true ↔ d.dstCap.toNat ≤ d.cursor.toNat := by
  simp [Decoder.full]

/-! ### The byte classes (R150) -/

@[simp] theorem classOf_flag : classOf Config.flag = .flag := rfl
@[simp] theorem classOf_escape : classOf Config.escape = .escape := rfl
theorem classOf_other {b : Byte} (h : b ≠ Config.flag) (h' : b ≠ Config.escape) : classOf b = .other := by
  simp [classOf, h, h']

theorem escape_ne_flag : Config.escape ≠ Config.flag := by decide

theorem classOf_eq_flag {b : Byte} : classOf b = .flag ↔ b = Config.flag := by
  unfold classOf
  split
  · simp [*]
  · split <;> simp_all [escape_ne_flag]

theorem classOf_eq_escape {b : Byte} : classOf b = .escape ↔ b = Config.escape := by
  unfold classOf
  split
  · rename_i h
    subst h
    exact ⟨nofun, nofun⟩
  · split <;> simp [*]

/-! ### What one byte can do -/

/-- The transition stores a byte, and which (R167, R170, R172); `none` where the table of R173 stores nothing. -/
def storedByte (d : DState) (b : Byte) : Option Byte :=
  match d, classOf b with
  | .hunting, _ => none
  | _, .flag => none
  | .frameStarted, .escape => none
  | .inMessage, .escape => none
  | .escapePending, _ => some (b ^^^ Config.xorMask)
  | _, .other => some b

/-- The state a byte leads to when nothing overflows (R173). -/
def nextDState (d : DState) (b : Byte) : DState :=
  match d, classOf b with
  | .hunting, .flag => .frameStarted
  | .hunting, _ => .hunting
  | _, .flag => .frameStarted
  | .frameStarted, .escape => .escapePending
  | .inMessage, .escape => .escapePending
  | _, _ => .inMessage

/-- Everything `step(DSTATE, b)` can do (R173): a store, a completion, an abort, or a change of `DSTATE` alone. -/
theorem stepByte_cases (b : Byte) (w : Work) :
    (∃ v, storedByte w.dec.dstate b = some v ∧ nextDState w.dec.dstate b = .inMessage ∧ stepByte b w = store v .inMessage w) ∨
    (storedByte w.dec.dstate b = none ∧ w.dec.dstate = .inMessage ∧ b = Config.flag ∧ stepByte b w = .going w.complete) ∨
    (storedByte w.dec.dstate b = none ∧ w.dec.dstate = .escapePending ∧ b = Config.flag ∧ stepByte b w = .going w.abort) ∨
    (storedByte w.dec.dstate b = none ∧ (w.dec.dstate = .inMessage → nextDState w.dec.dstate b = .escapePending) ∧
      w.dec.dstate ≠ .escapePending ∧
      (nextDState w.dec.dstate b = .inMessage → w.dec.dstate = .inMessage) ∧
      stepByte b w = .going (w.goto (nextDState w.dec.dstate b))) := by
  obtain ⟨⟨ds, _, _, _, _, _, _, _⟩, m⟩ := w
  cases ds <;> cases hc : classOf b <;>
    simp [stepByte, hc, storedByte, nextDState, Work.goto, ← classOf_eq_flag]

/-- `store` (R151) where there is room. -/
theorem store_room {w : Work} (v : Byte) (d : DState) (h : w.dec.cursor.toNat < w.dec.dstCap.toNat) :
    store v d w = .going
      { dec := { w.dec with cursor := w.dec.cursor + 1#17, dstate := d },
        mem := memWrite w.mem w.dec.dstBase w.dec.cursor.toNat v } := by
  have hf : w.dec.full = false := by simpa [Decoder.full] using h
  simp [store, hf]

/-- `store` (R151) where there is none: only `OVF` changes. -/
theorem store_full {w : Work} (v : Byte) (d : DState) (h : w.dec.dstCap.toNat ≤ w.dec.cursor.toNat) :
    store v d w = .overflow { w with dec := { w.dec with ovf := true } } := by
  simp [store, (Decoder.full_iff w.dec).mpr h]

/-- What no byte changes of the decoder (R27: "Only DEC_INIT writes these three"). -/
structure SameDestination (d d' : Decoder) : Prop where
  base : d'.dstBase = d.dstBase
  cap : d'.dstCap = d.dstCap
  valid : d'.dstValid = d.dstValid

theorem SameDestination.refl (d : Decoder) : SameDestination d d := ⟨rfl, rfl, rfl⟩

theorem SameDestination.trans {d d' d'' : Decoder} (h : SameDestination d d') (h' : SameDestination d' d'') :
    SameDestination d d'' := ⟨h'.base.trans h.base, h'.cap.trans h.cap, h'.valid.trans h.valid⟩

theorem stepByte_destination (b : Byte) (w : Work) : SameDestination w.dec (stepByte b w).work.dec := by
  rcases stepByte_cases b w with ⟨v, -, -, h⟩ | ⟨-, -, -, h⟩ | ⟨-, -, -, h⟩ | ⟨-, -, -, -, h⟩ <;> rw [h]
  · by_cases hr : w.dec.cursor.toNat < w.dec.dstCap.toNat
    · rw [store_room v _ hr]; exact ⟨rfl, rfl, rfl⟩
    · rw [store_full v _ (by omega)]; exact ⟨rfl, rfl, rfl⟩
  all_goals exact ⟨rfl, rfl, rfl⟩

/-- Every byte keeps the decoder's invariants (R32). -/
theorem stepByte_inv (b : Byte) {w : Work} (hi : w.dec.Inv) : (stepByte b w).work.dec.Inv := by
  have h1 := w.dec.anchor_lt
  have h2 := w.dec.cursor_lt
  have h3 := w.dec.dstCap_lt
  have h17 := w.dec.anchor17
  have two : (2#17).toNat = 2 := rfl
  have one : (1#17).toNat = 1 := rfl
  rcases stepByte_cases b w with ⟨v, -, -, h⟩ | ⟨-, hd, -, h⟩ | ⟨-, hd, -, h⟩ | ⟨-, ha, hb, hc, h⟩ <;> rw [h]
  · by_cases hr : w.dec.cursor.toNat < w.dec.dstCap.toNat
    · rw [store_room v _ hr]
      have := hi.1
      simp only [Fed.work, Decoder.Inv, BitVec.toNat_add, one, reduceCtorEq, or_self, false_implies, true_and, forall_const,
        and_true]
      omega
    · rw [store_full v _ (by omega)]
      exact hi
  · have := hi.2.2.1 hd
    simp only [Fed.work, Work.complete, Decoder.Inv, BitVec.toNat_add, BitVec.toNat_setWidth, two, reduceCtorEq, or_true,
      false_implies, forall_const, true_and, and_true]
    omega
  · have := hi.2.2.2.1
    simp only [Fed.work, Work.abort, Decoder.Inv, BitVec.toNat_add, h17, two, reduceCtorEq, or_true,
      false_implies, forall_const, true_and, and_true]
    omega
  · obtain ⟨i1, i2, i3, i4, i5⟩ := hi
    simp only [Fed.work, Work.goto, Decoder.Inv]
    refine ⟨i1, fun hn => ?_, fun hn => i3 (hc hn), i4, fun hn => ?_⟩
    · rcases hw : w.dec.dstate with _ | _ | _ | _
      · exact i2 (.inl hw)
      · exact i2 (.inr hw)
      · rw [ha hw] at hn
        simp at hn
      · exact absurd hw hb
    · rcases hw : w.dec.dstate with _ | _ | _ | _
      · exact .inl (i2 (.inl hw))
      · exact .inl (i2 (.inr hw))
      · exact .inr (i3 hw)
      · exact absurd hw hb

/-- A byte writes only at offsets from `ANCHOR` up that lie below `DST_CAP` (R175). -/
theorem stepByte_outside (b : Byte) {w : Work} (hi : w.dec.Inv) (a : Nat)
    (ha : ∀ j, w.dec.anchor.toNat ≤ j → j < w.dec.dstCap.toNat → a ≠ byteAddr w.dec.dstBase j) :
    (stepByte b w).work.mem.readByte a = w.mem.readByte a := by
  rcases stepByte_cases b w with ⟨v, -, -, h⟩ | ⟨-, hd, -, h⟩ | ⟨-, -, -, h⟩ | ⟨-, -, -, -, h⟩ <;> rw [h]
  · by_cases hr : w.dec.cursor.toNat < w.dec.dstCap.toNat
    · rw [store_room v _ hr]
      have := hi.1
      exact Memory.readByte_writeByte_other (ha _ (by omega) hr) _ _
    · rw [store_full v _ (by omega)]
      rfl
  · have := hi.2.2.1 hd
    refine readByte_memWriteAll_outside _ _ fun j hj => ha _ (by omega) ?_
    simp only [lengthBytes, List.length_cons, List.length_nil] at hj
    omega
  all_goals rfl

theorem stepByte_wf (b : Byte) {w : Work} (hm : w.mem.wf = true) : (stepByte b w).work.mem.wf = true := by
  rcases stepByte_cases b w with ⟨v, -, -, h⟩ | ⟨-, -, -, h⟩ | ⟨-, -, -, h⟩ | ⟨-, -, -, -, h⟩ <;> rw [h]
  · by_cases hr : w.dec.cursor.toNat < w.dec.dstCap.toNat
    · rw [store_room v _ hr]; exact memWrite_wf _ _ _ hm
    · rw [store_full v _ (by omega)]; exact hm
  · exact memWriteAll_wf _ _ _ hm
  all_goals exact hm

/-- `OVF` is set by the byte that overflows, and by nothing else of the byte machine (R31). -/
theorem stepByte_ovf (b : Byte) (w : Work) :
    (∀ w', stepByte b w = .overflow w' → w' = { w with dec := { w.dec with ovf := true } }) ∧
    (∀ w', stepByte b w = .going w' → w'.dec.ovf = w.dec.ovf) := by
  rcases stepByte_cases b w with ⟨v, -, -, h⟩ | ⟨-, -, -, h⟩ | ⟨-, -, -, h⟩ | ⟨-, -, -, -, h⟩ <;> rw [h]
  · by_cases hr : w.dec.cursor.toNat < w.dec.dstCap.toNat
    · rw [store_room v _ hr]
      refine ⟨nofun, fun w' e => ?_⟩
      cases e
      rfl
    · rw [store_full v _ (by omega)]
      refine ⟨fun w' e => ?_, nofun⟩
      cases e
      rfl
  all_goals exact ⟨nofun, fun w' e => by cases e; rfl⟩

/-! ### Runs of bytes -/

/-- What holds of a work that keeps it under every byte holds after a run of bytes, however it ends. -/
theorem decLoop_preserves {P : Work → Prop} (hstep : ∀ b w, P w → P (stepByte b w).work) (src : Word) (n j : Nat) {w : Work}
    (h : P w) : P (decLoop src n j w).work := by
  induction n generalizing j w with
  | zero => exact h
  | succ n ih =>
    have hs := hstep (memRead w.mem src j) w h
    simp only [decLoop]
    split
    · rename_i e
      rw [e] at hs
      exact ih (j + 1) hs
    · rename_i e
      rw [e] at hs
      exact hs

/-- The loop of R162 cut in two: the second part goes on where the first stopped, unless the first overflowed. -/
theorem decLoop_append (src : Word) (n k j : Nat) (w : Work) :
    decLoop src (n + k) j w =
      match decLoop src n j w with
      | .going w' => decLoop src k (j + n) w'
      | .overflow w' => .overflow w' := by
  induction n generalizing j w with
  | zero => simp [decLoop]
  | succ n ih =>
    rw [show n + 1 + k = (n + k) + 1 by omega]
    simp only [decLoop]
    cases stepByte (memRead w.mem src j) w with
    | going w' => simp only [ih, show j + 1 + n = j + (n + 1) by omega]
    | overflow w' => rfl

/-- A run of bytes keeps the invariants, the destination, and every byte outside the destination buffer (R32, R175). -/
theorem decLoop_keeps (src : Word) (n j : Nat) {w : Work} (hi : w.dec.Inv) :
    (decLoop src n j w).work.dec.Inv ∧ SameDestination w.dec (decLoop src n j w).work.dec ∧
      keepsOutside w.mem (decLoop src n j w).work.mem w.dec.dstBase w.dec.dstCap.toNat := by
  refine decLoop_preserves
    (P := fun x => x.dec.Inv ∧ SameDestination w.dec x.dec ∧ keepsOutside w.mem x.mem w.dec.dstBase w.dec.dstCap.toNat)
    (fun b x ⟨h1, h2, h3⟩ => ⟨stepByte_inv b h1, h2.trans (stepByte_destination b x), fun a ha => ?_⟩) src n j
    ⟨hi, SameDestination.refl _, fun _ _ => rfl⟩
  rw [stepByte_outside b h1 a fun i _ hi' e => ha ⟨i, by rw [← h2.cap]; exact hi', by rw [← h2.base]; exact e⟩]
  exact h3 a ha

theorem decLoop_wf (src : Word) (n j : Nat) {w : Work} (hm : w.mem.wf = true) : (decLoop src n j w).work.mem.wf = true :=
  decLoop_preserves (P := fun x => x.mem.wf = true) (fun b _ h => stepByte_wf b h) src n j hm

/-- The loop sets `OVF` exactly when it signals overflow (R31, R151). -/
theorem decLoop_ovf (src : Word) (n j : Nat) (w : Work) :
    (∀ w', decLoop src n j w = .overflow w' → w'.dec.ovf = true) ∧
    (∀ w', decLoop src n j w = .going w' → w'.dec.ovf = w.dec.ovf) := by
  induction n generalizing j w with
  | zero => exact ⟨nofun, fun w' h => by cases h; rfl⟩
  | succ n ih =>
    obtain ⟨h1, h2⟩ := stepByte_ovf (memRead w.mem src j) w
    simp only [decLoop]
    split
    · rename_i w' e
      exact ⟨(ih (j + 1) w').1, fun x hx => ((ih (j + 1) w').2 x hx).trans (h2 w' e)⟩
    · rename_i w' e
      exact ⟨fun x hx => by cases hx; rw [h1 w' e], nofun⟩

/-- Where the source shares no byte with the destination buffer, the loop feeds exactly the bytes the source held at its start. -/
theorem decLoop_eq_feedBytes (src : Word) (n j : Nat) {w : Work} (hi : w.dec.Inv)
    (h : ∀ p, j ≤ p → p < j + n → ∀ q, q < w.dec.dstCap.toNat → byteAddr src p ≠ byteAddr w.dec.dstBase q) :
    decLoop src n j w = feedBytes (bytesAt w.mem src j n) w := by
  induction n generalizing j w with
  | zero => rfl
  | succ n ih =>
    simp only [decLoop, bytesAt, feedBytes]
    have hs := stepByte_inv (memRead w.mem src j) hi
    have hd := stepByte_destination (memRead w.mem src j) w
    have ho := stepByte_outside (memRead w.mem src j) hi
    cases e : stepByte (memRead w.mem src j) w with
    | overflow w' => rfl
    | going w' =>
      rw [e] at hs hd ho
      simp only [Fed.work] at hs hd ho
      have hb : bytesAt w'.mem src (j + 1) n = bytesAt w.mem src (j + 1) n :=
        bytesAt_congr fun k hk => ho _ fun q _ hq => h _ (by omega) (by omega) q hq
      simp only
      rw [ih (j + 1) hs, hb]
      intro p hp hp' q hq
      rw [hd.cap] at hq
      rw [hd.base]
      exact h p (by omega) (by omega) q hq

/-! ### The start of a DEC -/

/-- The copy of `relocate()` is one run of writes of the bytes it moves: each is read before anything is written over it (R160). -/
theorem moveDown_eq (base : Word) (anchor n i : Nat) (m : Memory) (ha : 0 < anchor) (hlen : anchor + i + n ≤ 2 ^ 32) :
    moveDown base anchor n i m = memWriteAll m base i (bytesAt m base (anchor + i) n) := by
  induction n generalizing i m with
  | zero => rfl
  | succ n ih =>
    have hb : bytesAt (memWrite m base i (memRead m base (anchor + i))) base (anchor + (i + 1)) n =
        bytesAt m base (anchor + (i + 1)) n :=
      bytesAt_congr fun j hj => Memory.readByte_writeByte_other (byteAddr_ne (by omega) (by omega) (by omega)) _ _
    rw [moveDown, ih _ _ (by omega), hb]
    rfl

/-- `relocate()` (R160) under R32: the offsets shift down by the old anchor, and the payload in progress stands at offset 2. -/
theorem relocate_spec {w : Work} (hi : w.dec.Inv) :
    w.relocate.dec = { w.dec with cursor := w.dec.pending, anchor := 0#16 } ∧
    w.relocate.dec.Inv ∧
    w.relocate.mem = (if w.dec.anchor = 0#16 then w.mem else memWriteAll w.mem w.dec.dstBase 2 w.partialPayload) ∧
    w.relocate.partialPayload = w.partialPayload ∧
    keepsOutside w.mem w.relocate.mem w.dec.dstBase w.dec.dstCap.toNat := by
  have h1 := w.dec.anchor_lt
  have h2 := w.dec.cursor_lt
  have h3 := w.dec.dstCap_lt
  have hp := Decoder.pending_toNat hi
  have hdec : w.relocate.dec = { w.dec with cursor := w.dec.pending, anchor := 0#16 } := rfl
  have hinv : w.relocate.dec.Inv := by
    obtain ⟨i1, i2, i3, i4, i5⟩ := hi
    simp only [hdec, Decoder.Inv, hp, BitVec.toNat_ofNat]
    refine ⟨by omega, fun h => ?_, fun h => ?_, by omega, fun h => ?_⟩
    · have := i2 h; omega
    · have := i3 h; omega
    · have := i5 h; omega
  have hmem : w.relocate.mem =
      (if w.dec.anchor = 0#16 then w.mem else memWriteAll w.mem w.dec.dstBase 2 w.partialPayload) := by
    simp only [Work.relocate, Work.partialPayload, Config.lenBytes]
    split
    · rfl
    · rename_i hne
      have hpos : 0 < w.dec.anchor.toNat := Nat.pos_of_ne_zero fun e => hne (BitVec.eq_of_toNat_eq (by simpa using e))
      exact moveDown_eq _ _ _ _ _ hpos (by omega)
  have hlen : w.partialPayload.length = w.dec.cursor.toNat - w.dec.anchor.toNat - 2 := by
    simp [Work.partialPayload, Config.lenBytes, hp]
  have hfit : w.partialPayload.length ≠ 0 → 2 + w.partialPayload.length ≤ w.dec.dstCap.toNat := by
    obtain ⟨i1, i2, i3, i4, i5⟩ := hi
    rw [hlen]
    intro hne
    rcases hw : w.dec.dstate with _ | _ | _ | _
    · have := i2 (.inl hw); omega
    · have := i2 (.inr hw); omega
    · have := i3 hw; omega
    · have := i5 hw; omega
  refine ⟨hdec, hinv, hmem, ?_, ?_⟩
  · have hp' : (Decoder.pending w.relocate.dec).toNat = w.dec.pending.toNat := by
      rw [Decoder.pending_toNat hinv]
      simp [hdec]
    have hl : w.relocate.partialPayload = bytesAt w.relocate.mem w.dec.dstBase 2 w.partialPayload.length := by
      simp only [Work.partialPayload, hp', bytesAt_length]
      rfl
    rw [hl, hmem]
    split
    · rename_i h0
      simp only [Work.partialPayload, bytesAt_length, h0]
      rfl
    · exact bytesAt_memWriteAll _ _ _ _ (by omega)
  · intro a ha
    rw [hmem]
    split
    · rfl
    · exact readByte_memWriteAll_outside _ _ fun j hj e => ha ⟨2 + j, by omega, e⟩

/-- The start of a DEC (R162) is `relocate()` and a cleared `COUNT`. -/
theorem begin_spec {w : Work} (hi : w.dec.Inv) :
    w.begin.dec = { w.dec with cursor := w.dec.pending, anchor := 0#16, count := 0#16 } ∧
    w.begin.dec.Inv ∧
    w.begin.mem = (if w.dec.anchor = 0#16 then w.mem else memWriteAll w.mem w.dec.dstBase 2 w.partialPayload) ∧
    w.begin.partialPayload = w.partialPayload ∧
    keepsOutside w.mem w.begin.mem w.dec.dstBase w.dec.dstCap.toNat := by
  obtain ⟨h1, h2, h3, h4, h5⟩ := relocate_spec hi
  exact ⟨rfl, h2, h3, h4, h5⟩

theorem moveDown_wf (base : Word) (anchor n i : Nat) {m : Memory} (hm : m.wf = true) : (moveDown base anchor n i m).wf = true := by
  induction n generalizing i m with
  | zero => exact hm
  | succ n ih => exact ih _ (memWrite_wf _ _ _ hm)

theorem begin_wf {w : Work} (hm : w.mem.wf = true) : w.begin.mem.wf = true := by
  change (if w.dec.anchor = 0#16 then w.mem else moveDown _ _ _ _ _).wf = true
  split
  · exact hm
  · exact moveDown_wf _ _ _ _ hm

/-! ### DEC as a whole -/

/-- Everything a DEC can do (R161, R162): one of its three errors with nothing else changed, or the bytes fed. -/
theorem execDec_cases (s : State) :
    (s.dec.dstValid = false ∧ execDec s = .next (s.returning (decResult errUnset))) ∨
    (s.dec.dstValid = true ∧ s.dec.dstCap = 0#16 ∧ execDec s = .next (s.returning (decResult errCapacityZero))) ∨
    (s.dec.dstValid = true ∧ s.dec.dstCap ≠ 0#16 ∧ s.dec.ovf = true ∧ execDec s = .next (s.returning (decResult errOverflow))) ∨
    (s.dec.ready ∧ execDec s = .next ((s.withWork s.feed.work).returning (decResult s.feed.returnValue))) := by
  unfold execDec
  cases hv : s.dec.dstValid
  · simp
  · by_cases hc : s.dec.dstCap = 0#16
    · simp [hc]
    · cases ho : s.dec.ovf
      · simp [hc, ho, hv, Decoder.ready]
      · simp [hc]

/-- DEC when its checks pass (R162). -/
theorem execDec_ready {s : State} (h : s.dec.ready) :
    execDec s = .next ((s.withWork s.feed.work).returning (decResult s.feed.returnValue)) := by
  obtain ⟨h1, h2, h3⟩ := h
  simp [execDec, h1, h2, h3]

/-- The bytes of a DEC keep the invariants, the destination and every byte outside the destination buffer (R32, R175). -/
theorem feed_keeps {s : State} (hi : s.dec.Inv) :
    s.feed.work.dec.Inv ∧ SameDestination s.dec s.feed.work.dec ∧
      keepsOutside s.mem s.feed.work.mem s.dec.dstBase s.dec.dstCap.toNat := by
  obtain ⟨hb, h2, -, -, h5⟩ := begin_spec (w := s.work) hi
  unfold State.feed
  split
  · exact ⟨h2, ⟨by simp [Fed.work, hb], by simp [Fed.work, hb], by simp [Fed.work, hb]⟩, h5⟩
  · obtain ⟨l1, l2, l3⟩ := decLoop_keeps s.arg0 s.arg1.toNat 0 h2
    refine ⟨l1, ⟨l2.base, l2.cap, l2.valid⟩, fun a ha => ?_⟩
    rw [l3 a ha]
    exact h5 a ha

/-- A DEC whose checks passed leaves `OVF` set exactly when overflow was signalled. -/
theorem feed_ovf {s : State} (hi : s.dec.Inv) (hr : s.dec.ready) :
    (∃ w, s.feed = .overflow w ∧ w.dec.ovf = true) ∨ (∃ w, s.feed = .going w ∧ w.dec.ovf = false) := by
  have hb : s.work.begin.dec.ovf = false := by rw [(begin_spec (w := s.work) hi).1]; exact hr.2.2
  unfold State.feed
  split
  · exact .inr ⟨_, rfl, hb⟩
  · obtain ⟨h1, h2⟩ := decLoop_ovf s.arg0 s.arg1.toNat 0 s.work.begin
    cases hd : decLoop s.arg0 s.arg1.toNat 0 s.work.begin with
    | going w => exact .inr ⟨w, rfl, (h2 w hd).trans hb⟩
    | overflow w => exact .inl ⟨w, rfl, h1 w hd⟩

theorem feed_wf {s : State} (hm : s.mem.wf = true) : s.feed.work.mem.wf = true := by
  unfold State.feed
  split
  · exact begin_wf hm
  · exact decLoop_wf _ _ _ (begin_wf hm)

end Sys2Proof.Machine
end

