-- ==== Sys2Proof/Laws/Enc.lean ====
section
/-! SUPPORT. What the encoder's loop does: how many bytes it writes, what it leaves alone, and, when source and output share no byte, that it
writes exactly the frame of the source (41_framer_encode.md R122 to R124). -/

namespace Sys2Proof.Machine

/-- The encoder's stuffing is R85's table. -/
theorem stuff_eq_wireBytes (b : Byte) : stuff b = wireBytes b := by
  unfold stuff wireBytes Config.flag Config.escape Config.xorMask
  by_cases h : b = 0x7E#8
  · subst h; rfl
  · by_cases h' : b = 0x7D#8
    · subst h'; rfl
    · rw [if_neg (not_or.mpr ⟨h, h'⟩), if_neg h, if_neg h']

/-- A byte is sent as one or two bytes (R123). -/
theorem stuff_length (b : Byte) : 1 ≤ (stuff b).length ∧ (stuff b).length ≤ 2 := by
  unfold stuff
  split <;> simp

theorem flagIf_length (w : Bool) : (flagIf w).length = w.toNat := by
  cases w <;> rfl

/-- The loop writes at least one and at most two bytes for each source byte (R124). -/
theorem encLoop_count (src out : Word) (n i k : Nat) (m : Memory) :
    k + n ≤ (encLoop src out n i k m).2 ∧ (encLoop src out n i k m).2 ≤ k + 2 * n := by
  induction n generalizing i k m with
  | zero => simp [encLoop]
  | succ n ih =>
    have h := stuff_length (memRead m src i)
    have h' := ih (i + 1) (k + (stuff (memRead m src i)).length) (memWriteAll m out k (stuff (memRead m src i)))
    simp only [encLoop]
    omega

/-- The loop writes only at the output offsets it counts (R124: "No byte outside that range is written"). -/
theorem encLoop_outside (src out : Word) (n i k : Nat) (m : Memory) (a : Nat)
    (h : ∀ j, k ≤ j → j < (encLoop src out n i k m).2 → a ≠ byteAddr out j) :
    (encLoop src out n i k m).1.readByte a = m.readByte a := by
  induction n generalizing i k m with
  | zero => rfl
  | succ n ih =>
    have hc := encLoop_count src out n (i + 1) (k + (stuff (memRead m src i)).length)
      (memWriteAll m out k (stuff (memRead m src i)))
    simp only [encLoop] at h ⊢
    rw [ih _ _ _ fun j hj hj' => h j (by omega) hj', readByte_memWriteAll_outside]
    exact fun j hj => h (k + j) (by omega) (by omega)

theorem encLoop_wf (src out : Word) (n i k : Nat) {m : Memory} (hm : m.wf = true) : (encLoop src out n i k m).1.wf = true := by
  induction n generalizing i k m with
  | zero => exact hm
  | succ n ih => exact ih _ _ (memWriteAll_wf _ _ _ hm)

/-- Where the source shares no byte with the output still to be written, the loop is one run of writes of the stuffed source. -/
theorem encLoop_apart (src out : Word) (n i k : Nat) (m : Memory)
    (h : ∀ p, i ≤ p → p < i + n → ∀ j, k ≤ j → j < k + ((bytesAt m src i n).flatMap stuff).length →
      byteAddr src p ≠ byteAddr out j) :
    encLoop src out n i k m =
      (memWriteAll m out k ((bytesAt m src i n).flatMap stuff), k + ((bytesAt m src i n).flatMap stuff).length) := by
  induction n generalizing i k m with
  | zero => simp [encLoop, bytesAt, memWriteAll]
  | succ n ih =>
    have hsrc : bytesAt (memWriteAll m out k (stuff (memRead m src i))) src (i + 1) n = bytesAt m src (i + 1) n := by
      refine bytesAt_congr fun j hj => readByte_memWriteAll_outside _ _ fun q hq => ?_
      refine h _ (by omega) (by omega) _ (by omega) ?_
      simp only [bytesAt, List.flatMap_cons, List.length_append]
      omega
    rw [encLoop, ih]
    · simp only [hsrc, bytesAt, List.flatMap_cons, memWriteAll_append, List.length_append, Nat.add_assoc]
    · intro p hp hp' j hj hj'
      rw [hsrc] at hj'
      refine h p (by omega) (by omega) j (by omega) ?_
      simp only [bytesAt, List.flatMap_cons, List.length_append]
      omega

/-- Whatever the regions, the loop is one run of writes of some `n` stuffed bytes. -/
theorem encLoop_writes (src out : Word) (n i k : Nat) (m : Memory) :
    ∃ payload : List Byte, payload.length = n ∧
      encLoop src out n i k m = (memWriteAll m out k (payload.flatMap stuff), k + (payload.flatMap stuff).length) := by
  induction n generalizing i k m with
  | zero => exact ⟨[], rfl, rfl⟩
  | succ n ih =>
    obtain ⟨payload, h1, h2⟩ := ih (i + 1) (k + (stuff (memRead m src i)).length) (memWriteAll m out k (stuff (memRead m src i)))
    exact ⟨memRead m src i :: payload, by simp [h1],
      by rw [encLoop, h2, List.flatMap_cons, memWriteAll_append, List.length_append, Nat.add_assoc]⟩

/-- ENC writes between `n` and `2n + 2` bytes (R124). -/
theorem encBlock_count (mode : BlockMode) (src : Word) (n : Nat) (out : Word) (m : Memory) :
    n ≤ (encBlock mode src n out m).2 ∧ (encBlock mode src n out m).2 ≤ 2 * n + 2 := by
  have h := encLoop_count src out n 0 (flagIf (leadingFlag mode)).length (encHead mode out m)
  have h1 := Bool.toNat_le (leadingFlag mode)
  have h2 := Bool.toNat_le (trailingFlag mode)
  simp only [encBlock, encTail, flagIf_length] at h ⊢
  omega

/-- ENC leaves every byte outside the bytes it counts alone (R124). -/
theorem encBlock_outside (mode : BlockMode) (src : Word) (n : Nat) (out : Word) (m : Memory) :
    keepsOutside m (encBlock mode src n out m).1 out (encBlock mode src n out m).2 := by
  intro a ha
  have hlt : ∀ j, j < (encBlock mode src n out m).2 → a ≠ byteAddr out j := fun j hj e => ha ⟨j, hj, e⟩
  have hc := encLoop_count src out n 0 (flagIf (leadingFlag mode)).length (encHead mode out m)
  simp only [encBlock, encTail] at hlt ⊢
  rw [readByte_memWriteAll_outside _ _ fun j hj => hlt _ (by omega),
    encLoop_outside _ _ _ _ _ _ _ fun j _ hj => hlt _ (by omega), encHead,
    readByte_memWriteAll_outside _ _ fun j hj => hlt _ (by omega)]

theorem encBlock_wf (mode : BlockMode) (src : Word) (n : Nat) (out : Word) {m : Memory} (hm : m.wf = true) :
    (encBlock mode src n out m).1.wf = true :=
  memWriteAll_wf _ _ _ (encLoop_wf _ _ _ _ _ (memWriteAll_wf _ _ _ hm))

theorem frame_eq (mode : BlockMode) (payload : List Byte) :
    frame mode payload = flagIf (leadingFlag mode) ++ payload.flatMap stuff ++ flagIf (trailingFlag mode) := by
  simp [frame, funext stuff_eq_wireBytes, flagIf, Config.flag]

/-- Whatever the regions, ENC is one run of writes of the frame of some `n` bytes (R58, R122). -/
theorem encBlock_writes (mode : BlockMode) (src : Word) (n : Nat) (out : Word) (m : Memory) :
    ∃ payload : List Byte, payload.length = n ∧
      encBlock mode src n out m = (memWriteAll m out 0 (frame mode payload), (frame mode payload).length) := by
  obtain ⟨payload, h1, h2⟩ := encLoop_writes src out n 0 (flagIf (leadingFlag mode)).length (encHead mode out m)
  refine ⟨payload, h1, ?_⟩
  rw [encBlock, h2, frame_eq]
  simp only [encTail, encHead, memWriteAll_append, List.length_append, Nat.zero_add]

/-- Where source and output share no byte, ENC is one run of writes of the source's frame (R121, R122, R123). -/
theorem encBlock_apart (mode : BlockMode) (src : Word) (n : Nat) (out : Word) (m : Memory)
    (h : apart src n out (frame mode (bytesAt m src 0 n)).length) :
    encBlock mode src n out m =
      (memWriteAll m out 0 (frame mode (bytesAt m src 0 n)), (frame mode (bytesAt m src 0 n)).length) := by
  rw [frame_eq] at h ⊢
  simp only [List.length_append] at h
  have hsrc : bytesAt (encHead mode out m) src 0 n = bytesAt m src 0 n :=
    bytesAt_congr fun j hj => readByte_memWriteAll_outside _ _ fun q hq => h _ (by omega) _ (by omega)
  rw [encBlock, encLoop_apart]
  · simp only [hsrc, encTail, memWriteAll_append, List.length_append, Nat.zero_add]
    rfl
  · intro p _ hp' j _ hj'
    rw [hsrc] at hj'
    exact h p (by omega) j (by omega)

end Sys2Proof.Machine
end

