-- ==== Sys2Proof/Laws/Refine.lean ====
section
/-! SUPPORT. The decoder as a parser of lists: what the byte machine stores in buffer memory is exactly the records and the partial payload a parser
without addresses would hold (42_framer_decode.md R163 to R173, 30_encoding.md R86), and it overflows exactly when the parser runs out of room. -/

namespace Sys2Proof.Machine

/-! ### The parser -/

/-- A decoder without memory: where it began (the offset of its first record and the count before it), the state, the payload in progress, and the
messages completed since, the oldest first. -/
structure Parse where
  start : Nat
  before : BitVec 16
  st : DState
  part : List Byte
  msgs : List (List Byte)

/-- What one byte does to a parser, room not considered (R173). -/
def Parse.step (p : Parse) (b : Byte) : Parse :=
  match storedByte p.st b with
  | some v => { p with part := p.part ++ [v], st := .inMessage }
  | none =>
    if b = Config.flag ∧ p.st = .inMessage then { p with st := .frameStarted, part := [], msgs := p.msgs ++ [p.part] }
    else if b = Config.flag ∧ p.st = .escapePending then { p with st := .frameStarted, part := [] }
    else { p with st := nextDState p.st b }

/-- The bytes of the records of some messages. -/
def recordsBytes (msgs : List (List Byte)) : List Byte := msgs.flatMap recordBytes

/-- The offset a parser's next payload byte would be stored at. -/
def Parse.used (p : Parse) : Nat := p.start + (recordsBytes p.msgs).length + 2 + p.part.length

/-- Every byte of a list that is stored has room below `cap` (R151). -/
def Parse.room (cap : Nat) : List Byte → Parse → Prop
  | [], _ => True
  | b :: rest, p => ((storedByte p.st b).isSome → p.used < cap) ∧ Parse.room cap rest (p.step b)

theorem recordBytes_length (payload : List Byte) : (recordBytes payload).length = payload.length + 2 := by
  simp [recordBytes]

theorem recordsBytes_append (a b : List (List Byte)) : recordsBytes (a ++ b) = recordsBytes a ++ recordsBytes b := by
  simp [recordsBytes]

/-! ### A work holds a parser -/

/-- The decoder and memory hold what the parser holds. -/
structure Holds (w : Work) (p : Parse) : Prop where
  inv : w.dec.Inv
  st : w.dec.dstate = p.st
  anchor : w.dec.anchor.toNat = p.start + (recordsBytes p.msgs).length
  cursor : w.dec.cursor.toNat = w.dec.anchor.toNat + 2 + p.part.length
  count : w.dec.count = p.before + BitVec.ofNat 16 p.msgs.length
  retired : bytesAt w.mem w.dec.dstBase p.start (recordsBytes p.msgs).length = recordsBytes p.msgs
  partial_ : bytesAt w.mem w.dec.dstBase (w.dec.anchor.toNat + 2) p.part.length = p.part
  small : ∀ m ∈ p.msgs, 1 ≤ m.length ∧ m.length + 2 ≤ w.dec.dstCap.toNat

theorem Holds.used {w : Work} {p : Parse} (h : Holds w p) : p.used = w.dec.cursor.toNat := by
  rw [Parse.used, h.cursor, h.anchor]

theorem records_ge_three {msgs : List (List Byte)} (h : ∀ m ∈ msgs, 1 ≤ m.length) :
    3 * msgs.length ≤ (recordsBytes msgs).length := by
  induction msgs with
  | nil => simp [recordsBytes]
  | cons m rest ih =>
    have := ih fun x hx => h x (List.mem_cons_of_mem _ hx)
    have := h m List.mem_cons_self
    have hl := recordBytes_length m
    simp only [recordsBytes, List.flatMap_cons, List.length_append, List.length_cons] at *
    omega

/-- A run of writes at offsets at or above `i + n` leaves the `n` bytes from `i` on alone. -/
theorem bytesAt_memWriteAll_below (base : Word) (vs : List Byte) (m : Memory) (i n k : Nat) (h : i + n ≤ k)
    (hlen : k + vs.length ≤ 2 ^ 32) : bytesAt (memWriteAll m base k vs) base i n = bytesAt m base i n :=
  bytesAt_congr fun j hj =>
    readByte_memWriteAll_outside base vs fun q hq => byteAddr_ne (by omega) (by omega) (by omega)

/-- A run of writes below offset `i` leaves the bytes from `i` on alone. -/
theorem bytesAt_memWriteAll_above (base : Word) (vs : List Byte) (m : Memory) (i n k : Nat) (h : k + vs.length ≤ i)
    (hlen : i + n ≤ 2 ^ 32) : bytesAt (memWriteAll m base k vs) base i n = bytesAt m base i n :=
  bytesAt_congr fun j hj =>
    readByte_memWriteAll_outside base vs fun q hq => byteAddr_ne (by omega) (by omega) (by omega)

theorem bytesAt_memWrite_below (base : Word) (v : Byte) (m : Memory) (i n k : Nat) (h : i + n ≤ k) (hk : k < 2 ^ 32) :
    bytesAt (memWrite m base k v) base i n = bytesAt m base i n :=
  bytesAt_memWriteAll_below base [v] m i n k h (by simpa using hk)

/-- The two bytes of a length slot are those of the record (R54). -/
theorem lengthBytes_eq {len : BitVec 16} {payload : List Byte} (h : len.toNat = payload.length) :
    lengthBytes len ++ payload = recordBytes payload := by
  have h0 : len.extractLsb' 0 8 = BitVec.ofNat 8 payload.length := by
    apply BitVec.eq_of_toNat_eq
    simp [h]
  have h1 : len.extractLsb' 8 8 = BitVec.ofNat 8 (payload.length / 256) := by
    apply BitVec.eq_of_toNat_eq
    simp [h, Nat.shiftRight_eq_div_pow]
  simp [lengthBytes, recordBytes, h0, h1]

/-- One byte: the machine and the parser go on together, or the machine overflows, exactly where the parser has no room. -/
theorem stepByte_refines (b : Byte) {w : Work} {p : Parse} (h : Holds w p) :
    (((storedByte p.st b).isSome → p.used < w.dec.dstCap.toNat) ∧
      ∃ w', stepByte b w = .going w' ∧ Holds w' (p.step b) ∧ SameDestination w.dec w'.dec ∧ w'.dec.ovf = w.dec.ovf) ∨
    ((storedByte p.st b).isSome ∧ w.dec.dstCap.toNat ≤ p.used ∧
      stepByte b w = .overflow { w with dec := { w.dec with ovf := true } }) := by
  have hinv := stepByte_inv b h.inv
  have hdst := stepByte_destination b w
  have hused := h.used
  have h1 := w.dec.anchor_lt
  have h2 := w.dec.cursor_lt
  have h3 := w.dec.dstCap_lt
  have hst := h.st
  have one : (1#17).toNat = 1 := rfl
  rcases stepByte_cases b w with ⟨v, hv, -, e⟩ | ⟨hn, hd, hb, e⟩ | ⟨hn, hd, hb, e⟩ | ⟨hn, ha, hb, hc, e⟩
  · by_cases hr : w.dec.cursor.toNat < w.dec.dstCap.toNat
    · left
      have e' := e.trans (store_room v _ hr)
      rw [e'] at hinv
      refine ⟨fun _ => by omega, _, e', ?_, ⟨rfl, rfl, rfl⟩, rfl⟩
      have hp : p.step b = { p with part := p.part ++ [v], st := .inMessage } := by
        rw [hst] at hv
        simp [Parse.step, hv]
      rw [hp]
      have hcur := h.cursor
      have hanc := h.anchor
      refine ⟨hinv, rfl, h.anchor, ?_, h.count, ?_, ?_, h.small⟩
      · simp only [BitVec.toNat_add, one, List.length_append, List.length_cons, List.length_nil]
        omega
      · simp only
        rw [bytesAt_memWrite_below _ _ _ _ _ _ (by omega) (by omega)]
        exact h.retired
      · simp only [List.length_append, List.length_cons, List.length_nil, Nat.zero_add]
        rw [bytesAt_succ_last, bytesAt_memWrite_below _ _ _ _ _ _ (by omega) (by omega), h.partial_, ← hcur]
        simp [memRead, memWrite]
    · right
      rw [hst] at hv
      exact ⟨by simp [hv], by omega, e.trans (store_full v _ (by omega))⟩
  · left
    rw [e] at hinv
    rw [hst] at hn hd
    refine ⟨by simp [hn], _, e, ?_, ⟨rfl, rfl, rfl⟩, rfl⟩
    have hp : p.step b = { p with st := .frameStarted, part := [], msgs := p.msgs ++ [p.part] } := by
      rw [Parse.step, hn]
      simp [hb, hd]
    rw [hp]
    have hcur := h.cursor
    have hm := h.inv.2.2.1 (hst.trans hd)
    have hlen := Decoder.messageLength_toNat h.inv (hst.trans hd)
    have hll : (lengthBytes w.dec.messageLength).length = 2 := rfl
    have hca : (w.dec.cursor.setWidth 16).toNat = w.dec.cursor.toNat := by
      rw [BitVec.toNat_setWidth]
      omega
    have hrec : p.start + (recordsBytes (p.msgs ++ [p.part])).length = w.dec.cursor.toNat := by
      have := recordBytes_length p.part
      have := h.anchor
      simp only [recordsBytes_append, List.length_append]
      simp only [recordsBytes, List.flatMap_cons, List.flatMap_nil, List.append_nil] at *
      omega
    have hsmall : ∀ m ∈ p.msgs ++ [p.part], 1 ≤ m.length ∧ m.length + 2 ≤ w.dec.dstCap.toNat := by
      intro m hmem
      rcases List.mem_append.mp hmem with hmem | hmem
      · exact h.small m hmem
      · have hpm : m = p.part := by simpa using hmem
        rw [hpm]
        omega
    refine ⟨hinv, rfl, ?_, ?_, ?_, ?_, rfl, hsmall⟩
    · simp only [Work.complete]
      rw [hca, hrec]
    · have two : (2#17).toNat = 2 := rfl
      simp only [Work.complete, BitVec.toNat_add, two, hca, List.length_nil]
      omega
    · simp only [Work.complete, h.count, List.length_append, List.length_cons, List.length_nil, Nat.zero_add]
      rw [BitVec.ofNat_add, BitVec.add_assoc]
    · have hsplit : (recordsBytes (p.msgs ++ [p.part])).length =
          (recordsBytes p.msgs).length + ((lengthBytes w.dec.messageLength).length + p.part.length) := by
        have := h.anchor
        omega
      have hanc := h.anchor
      simp only [Work.complete]
      rw [hsplit, bytesAt_append, bytesAt_append, ← hanc, bytesAt_memWriteAll_below _ _ _ _ _ _ (by omega) (by omega),
        bytesAt_memWriteAll _ _ _ _ (by omega), bytesAt_memWriteAll_above _ _ _ _ _ _ (by omega) (by omega), hll, h.retired,
        h.partial_, lengthBytes_eq (by omega), recordsBytes_append]
      simp [recordsBytes]
  · left
    rw [e] at hinv
    rw [hst] at hn hd
    refine ⟨by simp [hn], _, e, ?_, ⟨rfl, rfl, rfl⟩, rfl⟩
    have hp : p.step b = { p with st := .frameStarted, part := [] } := by
      rw [Parse.step, hn]
      simp [hb, hd]
    rw [hp]
    refine ⟨hinv, rfl, h.anchor, ?_, h.count, h.retired, rfl, h.small⟩
    have two : (2#17).toNat = 2 := rfl
    have h17 := w.dec.anchor17
    simp only [Work.abort, BitVec.toNat_add, two, h17, List.length_nil]
    omega
  · left
    rw [e] at hinv
    rw [hst] at hn hb ha hc
    refine ⟨by simp [hn], _, e, ?_, ⟨rfl, rfl, rfl⟩, rfl⟩
    have hnf : ¬ (b = Config.flag ∧ p.st = .inMessage) := fun ⟨hbf, hi⟩ => by
      have := ha hi
      rw [hi, hbf] at this
      simp [nextDState] at this
    have hp : p.step b = { p with st := nextDState p.st b } := by
      simp [Parse.step, hn, hnf, hb]
    rw [hp]
    exact ⟨hinv, by rw [← hst]; rfl, h.anchor, h.cursor, h.count, h.retired, h.partial_, h.small⟩

/-- A run of bytes with room: the machine goes on, and holds what the parser holds. -/
theorem feedBytes_room (bs : List Byte) {w : Work} {p : Parse} (h : Holds w p) (hr : Parse.room w.dec.dstCap.toNat bs p) :
    ∃ w', feedBytes bs w = .going w' ∧ Holds w' (bs.foldl Parse.step p) ∧ SameDestination w.dec w'.dec ∧
      w'.dec.ovf = w.dec.ovf := by
  induction bs generalizing w p with
  | nil => exact ⟨w, rfl, h, SameDestination.refl _, rfl⟩
  | cons b rest ih =>
    obtain ⟨hb, hrest⟩ := hr
    rcases stepByte_refines b h with ⟨-, w', e, hh, hd, ho⟩ | ⟨hs, hc, -⟩
    · obtain ⟨w'', e', hh', hd', ho'⟩ := ih hh (by rw [hd.cap]; exact hrest)
      exact ⟨w'', by simp [feedBytes, e, e'], hh', hd.trans hd', ho'.trans ho⟩
    · have := hb hs
      omega

/-- A run of bytes without room overflows, at a state the parser reaches, with `OVF` the only further change (R151). -/
theorem feedBytes_noRoom (bs : List Byte) {w : Work} {p : Parse} (h : Holds w p) (hr : ¬ Parse.room w.dec.dstCap.toNat bs p) :
    ∃ w' pre, pre <+: bs ∧ feedBytes bs w = .overflow { w' with dec := { w'.dec with ovf := true } } ∧
      Holds w' (pre.foldl Parse.step p) ∧ SameDestination w.dec w'.dec := by
  induction bs generalizing w p with
  | nil => exact absurd trivial hr
  | cons b rest ih =>
    rcases stepByte_refines b h with ⟨hb, w', e, hh, hd, -⟩ | ⟨-, -, e⟩
    · have hrest : ¬ Parse.room w'.dec.dstCap.toNat rest (p.step b) := by
        rw [hd.cap]
        exact fun x => hr ⟨hb, x⟩
      obtain ⟨w'', pre, hpre, e', hh', hd'⟩ := ih hh hrest
      exact ⟨w'', b :: pre, (List.prefix_cons_inj b).mpr hpre, by simp [feedBytes, e, e'], hh', hd.trans hd'⟩
    · exact ⟨w, [], List.nil_prefix, by simp [feedBytes, e], h, SameDestination.refl _⟩

/-- A run of bytes goes on exactly when the parser has room. -/
theorem feedBytes_going_iff (bs : List Byte) {w : Work} {p : Parse} (h : Holds w p) :
    (∃ w', feedBytes bs w = .going w') ↔ Parse.room w.dec.dstCap.toNat bs p := by
  constructor
  · rintro ⟨w', e⟩
    by_contra hr
    obtain ⟨w'', -, -, e', -, -⟩ := feedBytes_noRoom bs h hr
    rw [e] at e'
    cases e'
  · intro hr
    obtain ⟨w', e, -⟩ := feedBytes_room bs h hr
    exact ⟨w', e⟩

/-- Every work holds the parser that begins at it. -/
theorem holds_here {w : Work} (hi : w.dec.Inv) :
    Holds w { start := w.dec.anchor.toNat, before := w.dec.count, st := w.dec.dstate, part := w.partialPayload, msgs := [] } := by
  have hp := Decoder.pending_toNat hi
  have h1 := hi.1
  have hlen : w.partialPayload.length = w.dec.cursor.toNat - w.dec.anchor.toNat - 2 := by
    simp [Work.partialPayload, Config.lenBytes, hp]
  refine ⟨hi, rfl, by simp [recordsBytes], ?_, by simp, rfl, ?_, by simp⟩
  · simp only [hlen]
    omega
  · simp only [Work.partialPayload, hp, Config.lenBytes, bytesAt_length]

/-- The start of a DEC holds a parser with no message and the payload that was in progress (R160). -/
theorem begin_holds {w : Work} (hi : w.dec.Inv) :
    Holds w.begin { start := 0, before := 0#16, st := w.dec.dstate, part := w.partialPayload, msgs := [] } := by
  obtain ⟨hd, hinv, -, hp, -⟩ := begin_spec hi
  have h := holds_here hinv
  rw [hp] at h
  simpa [hd] using h

/-! ### Reading the records back -/

theorem lengthAt_recordBytes (m : Memory) (base : Word) (offset : Nat) (payload : List Byte) (hlen : payload.length < 65536)
    (h : bytesAt m base offset (recordBytes payload).length = recordBytes payload) : lengthAt m base offset = payload.length := by
  rw [recordBytes_length, show payload.length + 2 = 1 + (1 + payload.length) by omega, bytesAt_append, bytesAt_append] at h
  simp only [bytesAt, recordBytes, List.cons_append, List.nil_append, List.cons.injEq] at h
  rw [lengthAt, h.1, h.2.1]
  simp only [BitVec.toNat_ofNat]
  omega

/-- The host's walk over buffer memory finds exactly the messages whose records stand there (R86). -/
theorem recordsAt_eq (m : Memory) (base : Word) (msgs : List (List Byte)) (offset : Nat) (hlen : ∀ x ∈ msgs, x.length < 65536)
    (h : bytesAt m base offset (recordsBytes msgs).length = recordsBytes msgs) :
    recordsAt m base msgs.length offset = msgs ∧ walkEnd m base msgs.length offset = offset + (recordsBytes msgs).length := by
  induction msgs generalizing offset with
  | nil => simp [recordsAt, walkEnd, recordsBytes]
  | cons x rest ih =>
    have hr : recordsBytes (x :: rest) = recordBytes x ++ recordsBytes rest := by simp [recordsBytes]
    rw [hr, List.length_append, bytesAt_append] at h
    obtain ⟨hx, hrest⟩ := List.append_inj h (by simp)
    have hl := lengthAt_recordBytes m base offset x (hlen x List.mem_cons_self) hx
    have hpay : bytesAt m base (offset + 2) x.length = x := by
      rw [recordBytes_length, Nat.add_comm x.length 2, bytesAt_append] at hx
      exact (List.append_inj hx (by simp)).2
    have hll := recordBytes_length x
    obtain ⟨i1, i2⟩ := ih (offset + (recordBytes x).length) (fun y hy => hlen y (List.mem_cons_of_mem _ hy)) hrest
    have hoff : offset + Config.lenBytes + lengthAt m base offset = offset + (recordBytes x).length := by
      rw [hl, hll, Config.lenBytes]
      omega
    constructor
    · rw [List.length_cons, recordsAt, hoff, i1, hl]
      simp only [Config.lenBytes, hpay]
    · rw [List.length_cons, walkEnd, hoff, i2, hr, List.length_append]
      omega

/-- The count of a parser that began at the start of a DEC is its number of messages: it cannot wrap (R162). -/
theorem Holds.count_toNat {w : Work} {p : Parse} (h : Holds w p) (h0 : p.before = 0#16) :
    w.dec.count.toNat = p.msgs.length ∧ 3 * w.dec.count.toNat + p.start ≤ w.dec.anchor.toNat := by
  have h1 := w.dec.anchor_lt
  have h3 := records_ge_three fun m hm => (h.small m hm).1
  have ha := h.anchor
  have hc : w.dec.count.toNat = p.msgs.length := by
    rw [h.count, h0, BitVec.zero_add, BitVec.toNat_ofNat]
    omega
  omega

/-- What a work that holds a parser begun at the start of a DEC shows the host: its messages as records up to the anchor, and its partial
payload (R86, R174). -/
theorem Holds.shown {w : Work} {p : Parse} (h : Holds w p) (h0 : p.start = 0) (hb : p.before = 0#16) :
    w.records = p.msgs ∧ walkEnd w.mem w.dec.dstBase w.dec.count.toNat 0 = w.dec.anchor.toNat ∧ w.partialPayload = p.part := by
  have h3 := w.dec.dstCap_lt
  have hlen : ∀ x ∈ p.msgs, x.length < 65536 := fun x hx => by have := h.small x hx; omega
  have hret := h.retired
  have hcnt := (h.count_toNat hb).1
  rw [h0] at hret
  obtain ⟨i1, i2⟩ := recordsAt_eq w.mem w.dec.dstBase p.msgs 0 hlen hret
  refine ⟨by rw [Work.records, hcnt, i1], by rw [hcnt, i2, h.anchor, h0], ?_⟩
  have hp := Decoder.pending_toNat h.inv
  have hc := h.cursor
  rw [Work.partialPayload, Config.lenBytes, hp, show w.dec.cursor.toNat - w.dec.anchor.toNat - 2 = p.part.length by omega]
  exact h.partial_

/-! ### A whole DEC -/

/-- No byte changes where a parser started. -/
@[simp] theorem Parse.step_start (p : Parse) (b : Byte) : (p.step b).start = p.start := by
  unfold Parse.step
  split
  · rfl
  · split
    · rfl
    · split <;> rfl

@[simp] theorem Parse.step_before (p : Parse) (b : Byte) : (p.step b).before = p.before := by
  unfold Parse.step
  split
  · rfl
  · split
    · rfl
    · split <;> rfl

@[simp] theorem Parse.foldl_start (bs : List Byte) (p : Parse) : (bs.foldl Parse.step p).start = p.start := by
  induction bs generalizing p with
  | nil => rfl
  | cons b rest ih => rw [List.foldl_cons, ih, Parse.step_start]

@[simp] theorem Parse.foldl_before (bs : List Byte) (p : Parse) : (bs.foldl Parse.step p).before = p.before := by
  induction bs generalizing p with
  | nil => rfl
  | cons b rest ih => rw [List.foldl_cons, ih, Parse.step_before]

/-- `OVF` is no part of what a parser holds. -/
theorem Holds.with_ovf {w : Work} {p : Parse} (h : Holds w p) (o : Bool) : Holds { w with dec := { w.dec with ovf := o } } p :=
  ⟨h.inv, h.st, h.anchor, h.cursor, h.count, h.retired, h.partial_, h.small⟩

/-- Whatever the bytes a DEC reads, even from its own destination, what it leaves is what some parser holds, its records from offset 0. -/
theorem feed_holds {s : State} (hi : s.dec.Inv) : ∃ p : Parse, Holds s.feed.work p ∧ p.start = 0 ∧ p.before = 0#16 := by
  have hb := begin_holds (w := s.work) hi
  unfold State.feed
  split
  · exact ⟨_, hb, rfl, rfl⟩
  · refine decLoop_preserves (P := fun w => ∃ p : Parse, Holds w p ∧ p.start = 0 ∧ p.before = 0#16) ?_ _ _ _ ⟨_, hb, rfl, rfl⟩
    rintro b w ⟨p, h, h0, h1⟩
    rcases stepByte_refines b h with ⟨-, w', e, h', -, -⟩ | ⟨-, -, e⟩ <;> rw [e]
    · exact ⟨_, h', by simp [h0], by simp [h1]⟩
    · exact ⟨p, h.with_ovf true, h0, h1⟩

/-- Where the source shares no byte with the destination buffer, a DEC feeds exactly the bytes the source held before it (R162). -/
theorem feed_eq {s : State} (hi : s.dec.Inv) (h0 : s.arg0 ≠ 0#32) (h1 : s.arg1 ≠ 0#32)
    (ha : apart s.arg0 s.arg1.toNat s.dec.dstBase s.dec.dstCap.toNat) : s.feed = feedBytes s.sourceBytes s.work.begin := by
  obtain ⟨b1, b2, -, -, b5⟩ := begin_spec (w := s.work) hi
  have hn : s.decNoInput = false := by simp [State.decNoInput, absent, h0, h1]
  simp only [State.feed, hn, Bool.false_eq_true, if_false]
  rw [decLoop_eq_feedBytes _ _ _ b2]
  · congr 1
    refine bytesAt_congr fun j hj => ?_
    exact b5 _ fun ⟨q, hq, e⟩ => ha (0 + j) (by omega) q hq e
  · intro p _ hp q hq
    rw [b1] at hq ⊢
    exact ha p (by omega) q hq

end Sys2Proof.Machine
end

