-- ==== Sys2Proof/Laws/Seq.lean ====
section
/-! SUPPORT. What the sequence extender's two counting operations do to an instance's 64-bit value `V` and to its invariant
(43_sequence_extender.md R181 to R188). -/

namespace Sys2Proof.Machine

/-- `V = HIGH * 256 + LOW` (R35). -/
theorem Stream.value_toNat (x : Stream) : x.value.toNat = x.high.toNat * 256 + x.low.toNat := by
  have h := x.low.isLt
  rw [Stream.value, BitVec.toNat_append, Nat.shiftLeft_eq, Nat.mul_comm, Nat.two_pow_add_eq_or_of_lt (by omega) x.high.toNat |>.symm]

/-- `V` determines `HIGH` and `LOW`. -/
theorem Stream.value_split (x : Stream) : x.value.extractLsb' 8 56 = x.high ∧ x.value.extractLsb' 0 8 = x.low := by
  have h := x.value_toNat
  have hl := x.low.isLt
  have hh := x.high.isLt
  constructor <;> apply BitVec.eq_of_toNat_eq <;>
    simp only [BitVec.extractLsb'_toNat, h, Nat.shiftRight_eq_div_pow] <;> omega

/-- A value put together from its own parts. -/
theorem value_of_parts (v : DWord) : (v.extractLsb' 8 56 ++ v.extractLsb' 0 8 : BitVec 64) = v := by
  have h := v.isLt
  have hs := Stream.value_toNat ⟨false, v.extractLsb' 8 56, v.extractLsb' 0 8, 0#8⟩
  apply BitVec.eq_of_toNat_eq
  refine hs.trans ?_
  simp only [BitVec.extractLsb'_toNat, Nat.shiftRight_eq_div_pow]
  omega

/-- SEQ_INCREMENT advances `V` by one, modulo 2^64 (R183). -/
theorem Stream.increment_value (x : Stream) : x.increment.value = x.value + 1#64 :=
  value_of_parts (x.value + 1#64)

/-- On an initialised instance SEQ_EXTEND advances `V` by `(raw - LOW) mod 256`, modulo 2^64 (R181, R182). -/
theorem Stream.extend_value {x : Stream} (raw : Byte) (h : x.init = true) :
    (x.extend raw).value = x.value + (raw - x.low).setWidth 64 := by
  have hl := x.low.isLt
  have hh := x.high.isLt
  have hr := raw.isLt
  have hv := x.value_toNat
  have he := (x.extend raw).value_toNat
  have one : (1#56).toNat = 1 := rfl
  apply BitVec.eq_of_toNat_eq
  rw [he, BitVec.toNat_add, BitVec.toNat_setWidth, BitVec.toNat_sub, hv]
  simp only [Stream.extend, h, if_true]
  by_cases hlt : raw.toNat < x.low.toNat
  · simp only [hlt, if_true, BitVec.toNat_add, one]
    omega
  · simp only [hlt, if_false]
    omega

/-- The first SEQ_EXTEND on an instance keeps `HIGH` (R181). -/
theorem Stream.extend_first {x : Stream} (raw : Byte) (h : x.init = false) :
    x.extend raw = { init := true, high := x.high, low := raw, baseline := raw } := by
  simp [Stream.extend, h]

theorem Stream.extend_init (x : Stream) (raw : Byte) : (x.extend raw).init = true := by
  unfold Stream.extend
  split
  · assumption
  · rfl

theorem Stream.extend_low (x : Stream) (raw : Byte) : (x.extend raw).low = raw := by
  unfold Stream.extend
  split <;> rfl

/-- An initialised instance meets R188, whatever it holds. -/
theorem Stream.inv_of_init {x : Stream} (h : x.init = true) : x.Inv := fun h' => by simp [h] at h'

theorem Stream.fresh_inv : Stream.fresh.Inv := fun _ => ⟨rfl, rfl, rfl⟩

/-- An update of one instance that meets R188 keeps R188 for all of them. -/
theorem State.setStream_inv {s : State} (id : Byte) {x : Stream} (hx : x.Inv) (h : s.StreamsInv) : (s.setStream id x).StreamsInv := by
  intro j
  by_cases hj : j = id
  · rw [hj, State.stream_setStream_same]
    exact hx
  · rw [State.stream_setStream_other s x hj]
    exact h j

end Sys2Proof.Machine
end

