-- ==== Sys2Proof/Laws/Step.lean ====
section
/-! SUPPORT. Everything a step can do, said once: the host's accesses, the command dispatch, and the shape of the state each command leaves
(40_command_interface.md R100 to R106). -/

namespace Sys2Proof.Machine

/-- The state ENC leaves (R122): only `RESULT` and buffer memory differ. -/
theorem State.encode_cases (mode : BlockMode) (s : State) :
    (s.encNothing = true ∧ s.encode mode = s.returning 0#64) ∨
    (s.encNothing = false ∧ s.encode mode = s.encoded (encBlock mode s.arg0 s.arg1.toNat s.arg2 s.mem)) := by
  unfold State.encode
  cases h : s.encNothing <;> simp

theorem State.encNothing_iff (s : State) : s.encNothing = true ↔ s.arg1 = 0#32 ∨ s.arg0 = 0#32 ∨ s.arg2 = 0#32 := by
  simp [State.encNothing, absent, or_assoc]

theorem State.decNoInput_iff (s : State) : s.decNoInput = true ↔ s.arg0 = 0#32 ∨ s.arg1 = 0#32 := by
  simp [State.decNoInput, absent]

theorem State.capacityFits_iff (s : State) : s.capacityFits = true ↔ s.arg1.toNat ≤ 0xFFFF := decide_eq_true_iff

/-- Everything a command can do: the state it leaves, by the command. -/
theorem exec_cases (i : Instr) (s : State) :
    (∃ mode, (i = .encMiddle ∧ mode = .middle ∨ i = .encFirst ∧ mode = .first ∨ i = .encLast ∧ mode = .last ∨
        i = .encComplete ∧ mode = .complete) ∧ exec i s = .next (s.encode mode)) ∨
    (i = .decInit ∧ s.arg1.toNat ≤ 0xFFFF ∧
      exec i s = .next (State.returning { s with dec := Decoder.armed s.arg0 s.capacityArg } 0#64)) ∨
    (i = .decInit ∧ 0xFFFF < s.arg1.toNat ∧ exec i s = .next s.refuse) ∨
    (i = .dec ∧ ∃ e, exec i s = .next (s.returning (decResult e)) ∧ (e = errUnset ∨ e = errCapacityZero ∨ e = errOverflow) ∧
      ¬ s.dec.ready) ∨
    (i = .dec ∧ s.dec.ready ∧ exec i s = .next ((s.withWork s.feed.work).returning (decResult s.feed.returnValue))) ∨
    (∃ id, ((∃ raw, i = .seqExtend id raw) ∨ (∃ raw, i = .seqIncrement id raw) ∨ i = .seqReset id) ∧
      ∃ x v, exec i s = .next ((s.setStream id x).returning v) ∧ x.Inv) ∨
    (∃ id v, i = .seqIsEmpty id ∧ exec i s = .next (s.returning v)) := by
  cases i with
  | encMiddle => exact .inl ⟨.middle, .inl ⟨rfl, rfl⟩, rfl⟩
  | encFirst => exact .inl ⟨.first, .inr (.inl ⟨rfl, rfl⟩), rfl⟩
  | encLast => exact .inl ⟨.last, .inr (.inr (.inl ⟨rfl, rfl⟩)), rfl⟩
  | encComplete => exact .inl ⟨.complete, .inr (.inr (.inr ⟨rfl, rfl⟩)), rfl⟩
  | decInit =>
    by_cases h : s.arg1.toNat ≤ 0xFFFF
    · have hf := s.capacityFits_iff.mpr h
      exact .inr (.inl ⟨rfl, h, by simp [exec, execDecInit, hf]⟩)
    · have hf : s.capacityFits = false := Bool.eq_false_iff.mpr fun hf => h (s.capacityFits_iff.mp hf)
      exact .inr (.inr (.inl ⟨rfl, by omega, by simp [exec, execDecInit, hf]⟩))
  | dec =>
    rcases execDec_cases s with ⟨hv, h⟩ | ⟨_, hc, h⟩ | ⟨_, _, ho, h⟩ | ⟨hr, h⟩
    · exact .inr (.inr (.inr (.inl ⟨rfl, _, h, .inl rfl, fun hr => by simp [hr.1] at hv⟩)))
    · exact .inr (.inr (.inr (.inl ⟨rfl, _, h, .inr (.inl rfl), fun hr => hr.2.1 hc⟩)))
    · exact .inr (.inr (.inr (.inl ⟨rfl, _, h, .inr (.inr rfl), fun hr => by simp [hr.2.2] at ho⟩)))
    · exact .inr (.inr (.inr (.inr (.inl ⟨rfl, hr, h⟩))))
  | seqExtend id raw =>
    exact .inr (.inr (.inr (.inr (.inr (.inl
      ⟨id, .inl ⟨raw, rfl⟩, _, _, rfl, Stream.inv_of_init (Stream.extend_init _ _)⟩)))))
  | seqIncrement id raw =>
    exact .inr (.inr (.inr (.inr (.inr (.inl ⟨id, .inr (.inl ⟨raw, rfl⟩), _, _, rfl, Stream.inv_of_init rfl⟩)))))
  | seqIsEmpty id => exact .inr (.inr (.inr (.inr (.inr (.inr ⟨id, _, rfl, rfl⟩)))))
  | seqReset id => exact .inr (.inr (.inr (.inr (.inr (.inl ⟨id, .inr (.inr rfl), _, _, rfl, Stream.fresh_inv⟩)))))

/-- Every command completes (R102, R200): no command faults and none is without a meaning. -/
theorem exec_completes (i : Instr) (s : State) : ∃ t, exec i s = .next t := by
  rcases exec_cases i s with ⟨_, _, h⟩ | ⟨_, _, h⟩ | ⟨_, _, h⟩ | ⟨_, _, h, _⟩ | ⟨_, _, h⟩ | ⟨_, _, _, _, h, _⟩ | ⟨_, _, _, h⟩ <;>
    exact ⟨_, h⟩

/-- Everything a step can do: wait, run or refuse a command word, a plain access of the host, a reset, or a refusal of the access. -/
theorem step_cases (s : State) :
    (s.host = [] ∧ step s = .next s) ∨
    (∃ w rest i, s.host = .regWrite 0 32 w :: rest ∧ decode w = .command i ∧ step s = exec i (s.withHost rest)) ∨
    (∃ w rest why, s.host = .regWrite 0 32 w :: rest ∧ decode w = .illegal why ∧ step s = .next (s.withHost rest).refuse) ∨
    (∃ offset v rest, s.host = .regWrite offset 32 v :: rest ∧ offset % 4 = 0 ∧ offset ≠ 0 ∧
      step s = .next ((s.withHost rest).writeReg offset v)) ∨
    (∃ offset rest, s.host = .regRead offset 32 :: rest ∧ offset % 4 = 0 ∧
      step s = .next ((s.withHost rest).observe (.reg offset (s.readReg offset)))) ∨
    (∃ a v rest, s.host = .memWrite a v :: rest ∧ step s = .next { s.withHost rest with mem := s.mem.writeByte a.toNat v }) ∨
    (∃ a rest, s.host = .memRead a :: rest ∧ step s = .next ((s.withHost rest).observe (.mem a (s.mem.readByte a.toNat)))) ∨
    (∃ rest, s.host = .reset :: rest ∧ step s = .next (s.withHost rest).resetBlock) ∨
    (∃ offset width rest, ((∃ v, s.host = .regWrite offset width v :: rest) ∨ s.host = .regRead offset width :: rest) ∧
      (width ≠ 32 ∨ offset % 4 ≠ 0) ∧ step s = .refused .registerAccess) := by
  rcases hh : s.host with _ | ⟨a, rest⟩
  · exact .inl ⟨rfl, by simp [step, hh]⟩
  · have hs : step s = perform a (s.withHost rest) := by simp [step, hh]
    rw [hs]
    cases a with
    | regWrite offset width v =>
      by_cases ha : width = 32 ∧ offset % 4 = 0
      · obtain ⟨rfl, ho⟩ := ha
        by_cases h0 : offset = 0
        · subst h0
          cases hd : decode v with
          | command i => exact .inr (.inl ⟨v, rest, i, rfl, hd, by simp [perform, admitted, command, hd]⟩)
          | illegal why => exact .inr (.inr (.inl ⟨v, rest, why, rfl, hd, by simp [perform, admitted, command, hd]⟩))
        · exact .inr (.inr (.inr (.inl ⟨offset, v, rest, rfl, ho, h0, by simp [perform, admitted, ho, h0]⟩)))
      · have hn : admitted offset width = false := by simpa [admitted] using ha
        refine .inr (.inr (.inr (.inr (.inr (.inr (.inr (.inr ⟨offset, width, rest, .inl ⟨v, rfl⟩, ?_, by simp [perform, hn]⟩)))))))
        by_cases hw : width = 32
        · exact .inr fun ho => ha ⟨hw, ho⟩
        · exact .inl hw
    | regRead offset width =>
      by_cases ha : width = 32 ∧ offset % 4 = 0
      · obtain ⟨rfl, ho⟩ := ha
        exact .inr (.inr (.inr (.inr (.inl ⟨offset, rest, rfl, ho, by simp [perform, admitted, ho]; rfl⟩))))
      · have hn : admitted offset width = false := by simpa [admitted] using ha
        refine .inr (.inr (.inr (.inr (.inr (.inr (.inr (.inr ⟨offset, width, rest, .inr rfl, ?_, by simp [perform, hn]⟩)))))))
        by_cases hw : width = 32
        · exact .inr fun ho => ha ⟨hw, ho⟩
        · exact .inl hw
    | memWrite a v => exact .inr (.inr (.inr (.inr (.inr (.inl ⟨a, v, rest, rfl, rfl⟩)))))
    | memRead a => exact .inr (.inr (.inr (.inr (.inr (.inr (.inl ⟨a, rest, rfl, rfl⟩))))))
    | reset => exact .inr (.inr (.inr (.inr (.inr (.inr (.inr (.inl ⟨rest, rfl, rfl⟩)))))))

/-- What a plain register write leaves alone: all but the argument registers and `SEQ_SEL` (R100). -/
theorem State.writeReg_keeps (s : State) (offset : Nat) (v : Word) :
    (s.writeReg offset v).result = s.result ∧ (s.writeReg offset v).errCmd = s.errCmd ∧ (s.writeReg offset v).dec = s.dec ∧
      (s.writeReg offset v).streams = s.streams ∧ (s.writeReg offset v).mem = s.mem ∧ (s.writeReg offset v).host = s.host ∧
      (s.writeReg offset v).observed = s.observed := by
  unfold State.writeReg
  split <;> exact ⟨rfl, rfl, rfl, rfl, rfl, rfl, rfl⟩

/-- The decoder re-armed meets R32, whatever the destination. -/
theorem Decoder.armed_inv (base : Word) (cap : BitVec 16) : (Decoder.armed base cap).Inv := by
  simp [Decoder.Inv, Decoder.armed]

/-- A property of the machine that every command keeps, and every access of the host, is kept by every step. -/
theorem step_keeps (P : State → Prop) (hexec : ∀ i s t, P s → exec i s = .next t → P t) (hhost : ∀ s rest, P s → P (s.withHost rest))
    (hrefuse : ∀ s, P s → P s.refuse) (hwrite : ∀ s offset v, P s → P (s.writeReg offset v)) (hobserve : ∀ s o, P s → P (s.observe o))
    (hmem : ∀ s (a : Word) v, P s → P { s with mem := s.mem.writeByte a.toNat v }) (hreset : ∀ s, P s → P s.resetBlock)
    {s t : State} (hs : P s) (h : step s = .next t) : P t := by
  rcases step_cases s with ⟨-, e⟩ | ⟨_, rest, i, -, -, e⟩ | ⟨_, rest, _, -, -, e⟩ | ⟨o, v, rest, -, -, -, e⟩ | ⟨o, rest, -, -, e⟩ |
    ⟨a, v, rest, -, e⟩ | ⟨a, rest, -, e⟩ | ⟨rest, -, e⟩ | ⟨_, _, _, -, -, e⟩ <;> rw [e] at h
  · cases h
    exact hs
  · exact hexec i _ t (hhost s rest hs) h
  · cases h
    exact hrefuse _ (hhost s rest hs)
  · cases h
    exact hwrite _ o v (hhost s rest hs)
  · cases h
    exact hobserve _ _ (hhost s rest hs)
  · cases h
    exact hmem _ a v (hhost s rest hs)
  · cases h
    exact hobserve _ _ (hhost s rest hs)
  · cases h
    exact hreset _ (hhost s rest hs)
  · cases h

end Sys2Proof.Machine
end

