-- ==== Sys2Proof/Laws/Frames.lean ====
section
/-! SUPPORT. What the decoder's parser makes of the encoder's bytes: stuffed bytes are payload, a frame is a message, and how much room each needs
(41_framer_encode.md R129, 42_framer_decode.md R153, R171, R178). -/

namespace Sys2Proof.Machine

theorem Parse.room_append (cap : Nat) (a b : List Byte) (p : Parse) :
    Parse.room cap (a ++ b) p ↔ Parse.room cap a p ∧ Parse.room cap b (a.foldl Parse.step p) := by
  induction a generalizing p with
  | nil => simp [Parse.room]
  | cons x rest ih => simp [Parse.room, ih, and_assoc]

/-! ### Single bytes -/

/-- A FLAG in HUNTING or FRAME_STARTED leads to FRAME_STARTED (R163, R165) and stores nothing. -/
theorem Parse.step_flag_idle {p : Parse} (h : p.st = .hunting ∨ p.st = .frameStarted) :
    p.step Config.flag = { p with st := .frameStarted } ∧ storedByte p.st Config.flag = none := by
  rcases h with h | h <;> simp [Parse.step, storedByte, nextDState, h]

/-- A FLAG in IN_MESSAGE completes the message (R168). -/
theorem Parse.step_flag_message {p : Parse} (h : p.st = .inMessage) :
    p.step Config.flag = { p with st := .frameStarted, part := [], msgs := p.msgs ++ [p.part] } ∧
      storedByte p.st Config.flag = none := by
  simp [Parse.step, storedByte, h]

/-- A FLAG in ESCAPE_PENDING aborts the fragment (R171). -/
theorem Parse.step_flag_abort {p : Parse} (h : p.st = .escapePending) :
    p.step Config.flag = { p with st := .frameStarted, part := [] } ∧ storedByte p.st Config.flag = none := by
  simp [Parse.step, storedByte, h]

/-- An ESCAPE in FRAME_STARTED or IN_MESSAGE leads to ESCAPE_PENDING (R166, R169) and stores nothing. -/
theorem Parse.step_escape {p : Parse} (h : p.st = .frameStarted ∨ p.st = .inMessage) :
    p.step Config.escape = { p with st := .escapePending } ∧ storedByte p.st Config.escape = none := by
  have := escape_ne_flag
  rcases h with h | h <;> simp [Parse.step, storedByte, nextDState, h, this]

/-- Any other byte in FRAME_STARTED or IN_MESSAGE is stored (R167, R170). -/
theorem Parse.step_other {p : Parse} {b : Byte} (h : p.st = .frameStarted ∨ p.st = .inMessage) (hf : b ≠ Config.flag)
    (he : b ≠ Config.escape) :
    p.step b = { p with st := .inMessage, part := p.part ++ [b] } ∧ storedByte p.st b = some b := by
  have hc := classOf_other hf he
  rcases h with h | h <;> simp [Parse.step, storedByte, h, hc]

/-- Any byte but FLAG in ESCAPE_PENDING is unmasked and stored (R172). -/
theorem Parse.step_unmask {p : Parse} {b : Byte} (h : p.st = .escapePending) (hf : b ≠ Config.flag) :
    p.step b = { p with st := .inMessage, part := p.part ++ [b ^^^ Config.xorMask] } ∧
      storedByte p.st b = some (b ^^^ Config.xorMask) := by
  have hs : storedByte p.st b = some (b ^^^ Config.xorMask) := by
    have hn : classOf b ≠ .flag := fun e => hf (classOf_eq_flag.mp e)
    rw [h]
    unfold storedByte
    cases hc : classOf b <;> simp_all
  exact ⟨by simp [Parse.step, hs], hs⟩

/-! ### Stuffed bytes -/

/-- The wire bytes of one payload byte store that byte (R178): and need exactly the room of one byte. -/
theorem Parse.wireBytes_step {p : Parse} (b : Byte) (cap : Nat) (h : p.st = .frameStarted ∨ p.st = .inMessage) :
    (wireBytes b).foldl Parse.step p = { p with st := .inMessage, part := p.part ++ [b] } ∧
      (Parse.room cap (wireBytes b) p ↔ p.used < cap) := by
  have hesc : ∀ x : Byte, x ≠ Config.flag → x ^^^ Config.xorMask = b →
      List.foldl Parse.step p [Config.escape, x] = { p with st := .inMessage, part := p.part ++ [b] } ∧
        (Parse.room cap [Config.escape, x] p ↔ p.used < cap) := by
    intro x hx hb
    obtain ⟨e1, e2⟩ := Parse.step_escape h
    obtain ⟨u1, u2⟩ := Parse.step_unmask (p := { p with st := .escapePending }) rfl hx
    constructor
    · simp only [List.foldl_cons, List.foldl_nil, e1, u1, hb]
    · simp only [Parse.room, e2, e1, u2, Option.isSome_none, Option.isSome_some, and_true, forall_const]
      simp [Parse.used]
  unfold wireBytes
  split
  · rename_i hb
    exact hesc 0x5E#8 (by decide) (by rw [hb]; decide)
  · split
    · rename_i hb
      exact hesc 0x5D#8 (by decide) (by rw [hb]; decide)
    · rename_i hf he
      obtain ⟨e1, e2⟩ := Parse.step_other h hf he
      simp [Parse.room, e1, e2]

/-- A stuffed payload is stored byte for byte, and needs exactly its own room (R153). -/
theorem Parse.stuffed_step (payload : List Byte) {p : Parse} (cap : Nat) (h : p.st = .frameStarted ∨ p.st = .inMessage) :
    (payload.flatMap wireBytes).foldl Parse.step p =
        { p with st := if payload = [] then p.st else .inMessage, part := p.part ++ payload } ∧
      (Parse.room cap (payload.flatMap wireBytes) p ↔ (payload ≠ [] → p.used + payload.length ≤ cap)) := by
  induction payload generalizing p with
  | nil => simp [Parse.room]
  | cons b rest ih =>
    obtain ⟨e1, e2⟩ := Parse.wireBytes_step b cap h
    obtain ⟨i1, i2⟩ := ih (p := { p with st := .inMessage, part := p.part ++ [b] }) (.inr rfl)
    have hu : Parse.used { p with st := .inMessage, part := p.part ++ [b] } = p.used + 1 := by
      simp only [Parse.used, List.length_append, List.length_cons, List.length_nil]
      omega
    constructor
    · rw [List.flatMap_cons, List.foldl_append, e1, i1]
      by_cases hr : rest = [] <;> simp [hr]
    · rw [List.flatMap_cons, Parse.room_append, e1, e2, i2, hu]
      simp only [ne_eq, reduceCtorEq, not_false_eq_true, forall_const, List.length_cons]
      by_cases hr : rest = []
      · simp only [hr, not_true_eq_false, false_implies, and_true, List.length_nil]
        omega
      · simp only [hr, not_false_eq_true, forall_const]
        omega

/-- A COMPLETE frame of a non-empty payload, from HUNTING or FRAME_STARTED with nothing in progress, is one message (R178), and needs exactly the
room of its payload (R153). -/
theorem Parse.frame_step (payload : List Byte) {p : Parse} (cap : Nat) (h : p.st = .hunting ∨ p.st = .frameStarted)
    (hp : p.part = []) (hne : payload ≠ []) :
    (frame .complete payload).foldl Parse.step p = { p with st := .frameStarted, part := [], msgs := p.msgs ++ [payload] } ∧
      (Parse.room cap (frame .complete payload) p ↔ p.used + payload.length ≤ cap) := by
  obtain ⟨f1, f2⟩ := Parse.step_flag_idle h
  obtain ⟨s1, s2⟩ := Parse.stuffed_step payload (p := { p with st := .frameStarted }) cap (.inl rfl)
  have hu : Parse.used { p with st := .frameStarted } = p.used := rfl
  simp only [if_neg hne, hp, List.nil_append] at s1
  obtain ⟨l1, l2⟩ := Parse.step_flag_message
    (p := { start := p.start, before := p.before, st := .inMessage, part := payload, msgs := p.msgs }) rfl
  have hfr : frame .complete payload = [Config.flag] ++ payload.flatMap wireBytes ++ [Config.flag] := rfl
  have hone : List.foldl Parse.step p [Config.flag] = p.step Config.flag := rfl
  have hs1 : List.foldl Parse.step (p.step Config.flag) (payload.flatMap wireBytes) =
      { start := p.start, before := p.before, st := .inMessage, part := payload, msgs := p.msgs } := by
    rw [f1, hp]
    exact s1
  constructor
  · rw [hfr, List.foldl_append, List.foldl_append, hone, hs1]
    exact l1
  · rw [hfr, Parse.room_append, Parse.room_append, List.foldl_append, hone, hs1, f1, s2, hu]
    simp [Parse.room, f2, l2, hne]

/-! ### A whole DEC -/

/-- The parser a DEC starts from: the message in progress, and no record (R162). -/
def State.parse (s : State) : Parse :=
  { start := 0, before := 0#16, st := s.dec.dstate, part := s.work.partialPayload, msgs := [] }

/-- A message count as DEC returns it. -/
theorem decResult_count (c : BitVec 16) : (decResult (c.setWidth 32)).toNat = c.toNat := by
  have h := c.isLt
  have hm : (c.setWidth 32 : BitVec 32).msb = false := by
    rw [BitVec.msb_eq_decide]
    simp only [BitVec.toNat_setWidth, decide_eq_false_iff_not]
    omega
  rw [decResult, BitVec.signExtend_eq_setWidth_of_msb_false hm]
  simp only [BitVec.toNat_setWidth]
  omega

/-- A DEC of bytes that all have room ends as the parser does, and returns the number of its messages (R162). -/
theorem dec_of_room {s : State} (hr : s.dec.ready) (hi : s.dec.Inv) (h0 : s.arg0 ≠ 0#32) (h1 : s.arg1 ≠ 0#32)
    (ha : apart s.arg0 s.arg1.toNat s.dec.dstBase s.dec.dstCap.toNat)
    (room : Parse.room s.dec.dstCap.toNat s.sourceBytes s.parse) :
    ∃ t, exec .dec s = .next t ∧ Holds t.work (s.sourceBytes.foldl Parse.step s.parse) ∧ SameDestination s.dec t.dec ∧
      t.dec.ovf = false ∧ t.result.toNat = (s.sourceBytes.foldl Parse.step s.parse).msgs.length ∧
      keepsOutside s.mem t.mem s.dec.dstBase s.dec.dstCap.toNat := by
  have hb := begin_spec (w := s.work) hi
  have hh : Holds s.work.begin s.parse := begin_holds (w := s.work) hi
  have hcap : s.work.begin.dec.dstCap = s.dec.dstCap := by rw [hb.1]; rfl
  obtain ⟨w, e, hw, -, ho⟩ := feedBytes_room s.sourceBytes hh (by rwa [hcap])
  rw [← feed_eq hi h0 h1 ha] at e
  obtain ⟨-, k2, k3⟩ := feed_keeps hi
  have he : execDec s = .next ((s.withWork w).returning (decResult (w.dec.count.setWidth 32))) := by
    rw [execDec_ready hr, e]
    rfl
  rw [e] at k2 k3
  refine ⟨_, he, hw, k2, ?_, ?_, k3⟩
  · exact ho.trans (by rw [hb.1]; exact hr.2.2)
  · exact (decResult_count _).trans (hw.count_toNat (by simp [State.parse])).1

/-- A DEC of bytes of which some has no room overflows (R151). -/
theorem dec_of_noRoom {s : State} (hr : s.dec.ready) (hi : s.dec.Inv) (h0 : s.arg0 ≠ 0#32) (h1 : s.arg1 ≠ 0#32)
    (ha : apart s.arg0 s.arg1.toNat s.dec.dstBase s.dec.dstCap.toNat)
    (room : ¬ Parse.room s.dec.dstCap.toNat s.sourceBytes s.parse) :
    ∃ t, exec .dec s = .next t ∧ t.dec.ovf = true := by
  have hb := begin_spec (w := s.work) hi
  have hh : Holds s.work.begin s.parse := begin_holds (w := s.work) hi
  have hcap : s.work.begin.dec.dstCap = s.dec.dstCap := by rw [hb.1]; rfl
  obtain ⟨w, -, -, e, -, -⟩ := feedBytes_noRoom s.sourceBytes hh (by rwa [hcap])
  rw [← feed_eq hi h0 h1 ha] at e
  exact ⟨_, execDec_ready hr, by rw [e]; rfl⟩

/-- A DEC without input keeps the message in progress and shows no record (R162, D15). -/
theorem dec_of_noInput {s : State} (hr : s.dec.ready) (hi : s.dec.Inv) (hn : s.decNoInput = true) :
    ∃ t, exec .dec s = .next t ∧ Holds t.work s.parse ∧ SameDestination s.dec t.dec ∧ t.dec.ovf = false ∧
      keepsOutside s.mem t.mem s.dec.dstBase s.dec.dstCap.toNat := by
  have hb := begin_spec (w := s.work) hi
  obtain ⟨-, k2, k3⟩ := feed_keeps hi
  have e : s.feed = .going s.work.begin := by simp [State.feed, hn]
  rw [e] at k2 k3
  refine ⟨_, execDec_ready hr, ?_, ?_, ?_, ?_⟩
  · rw [e]
    exact begin_holds (w := s.work) hi
  · rw [e]
    exact k2
  · rw [e]
    exact (by rw [hb.1]; exact hr.2.2 : s.work.begin.dec.ovf = false)
  · rw [e]
    exact k3

end Sys2Proof.Machine
end

