-- ==== Sys2Proof/Laws/Words.lean ====
section
/-! SUPPORT. A command word as its six fields side by side (30_encoding.md R70), field by field. -/

namespace Sys2Proof

/-- Two vectors side by side, as a number. -/
theorem toNat_append_add {m n : Nat} (x : BitVec m) (y : BitVec n) : (x ++ y).toNat = x.toNat * 2 ^ n + y.toNat := by
  rw [BitVec.toNat_append, Nat.shiftLeft_eq, Nat.mul_comm, Nat.two_pow_add_eq_or_of_lt y.isLt x.toNat]

/-- A word of any six fields, the reserved ones included (R70). -/
def wordOf (r1 raw stream : Byte) (r0 mode : BitVec 2) (op : BitVec 4) : Word := (r1 ++ raw ++ stream ++ r0 ++ mode ++ op : BitVec 32)

theorem assemble_eq (op : BitVec 4) (mode : BitVec 2) (stream raw : Byte) :
    assemble op mode stream raw = wordOf 0#8 raw stream 0#2 mode op := rfl

/-- A command word as a number: each field at its place (R70). -/
theorem wordOf_toNat (r1 raw stream : Byte) (r0 mode : BitVec 2) (op : BitVec 4) :
    (wordOf r1 raw stream r0 mode op).toNat =
      r1.toNat * 16777216 + raw.toNat * 65536 + stream.toNat * 256 + r0.toNat * 64 + mode.toNat * 16 + op.toNat := by
  refine (toNat_append_add (r1 ++ raw ++ stream ++ r0 ++ mode) op).trans ?_
  rw [toNat_append_add, toNat_append_add, toNat_append_add, toNat_append_add]
  omega

@[simp] theorem opField_wordOf (r1 raw stream : Byte) (r0 mode : BitVec 2) (op : BitVec 4) :
    opField (wordOf r1 raw stream r0 mode op) = op := by
  apply BitVec.eq_of_toNat_eq
  rw [opField, BitVec.extractLsb'_toNat, wordOf_toNat, Nat.shiftRight_eq_div_pow]
  have := op.isLt
  have := mode.isLt
  have := r0.isLt
  have := stream.isLt
  have := raw.isLt
  have := r1.isLt
  omega

@[simp] theorem modeField_wordOf (r1 raw stream : Byte) (r0 mode : BitVec 2) (op : BitVec 4) :
    modeField (wordOf r1 raw stream r0 mode op) = mode := by
  apply BitVec.eq_of_toNat_eq
  rw [modeField, BitVec.extractLsb'_toNat, wordOf_toNat, Nat.shiftRight_eq_div_pow]
  have := op.isLt
  have := mode.isLt
  have := r0.isLt
  have := stream.isLt
  have := raw.isLt
  have := r1.isLt
  omega

@[simp] theorem rsv0Field_wordOf (r1 raw stream : Byte) (r0 mode : BitVec 2) (op : BitVec 4) :
    rsv0Field (wordOf r1 raw stream r0 mode op) = r0 := by
  apply BitVec.eq_of_toNat_eq
  rw [rsv0Field, BitVec.extractLsb'_toNat, wordOf_toNat, Nat.shiftRight_eq_div_pow]
  have := op.isLt
  have := mode.isLt
  have := r0.isLt
  have := stream.isLt
  have := raw.isLt
  have := r1.isLt
  omega

@[simp] theorem streamField_wordOf (r1 raw stream : Byte) (r0 mode : BitVec 2) (op : BitVec 4) :
    streamField (wordOf r1 raw stream r0 mode op) = stream := by
  apply BitVec.eq_of_toNat_eq
  rw [streamField, BitVec.extractLsb'_toNat, wordOf_toNat, Nat.shiftRight_eq_div_pow]
  have := op.isLt
  have := mode.isLt
  have := r0.isLt
  have := stream.isLt
  have := raw.isLt
  have := r1.isLt
  omega

@[simp] theorem rawField_wordOf (r1 raw stream : Byte) (r0 mode : BitVec 2) (op : BitVec 4) :
    rawField (wordOf r1 raw stream r0 mode op) = raw := by
  apply BitVec.eq_of_toNat_eq
  rw [rawField, BitVec.extractLsb'_toNat, wordOf_toNat, Nat.shiftRight_eq_div_pow]
  have := op.isLt
  have := mode.isLt
  have := r0.isLt
  have := stream.isLt
  have := raw.isLt
  have := r1.isLt
  omega

@[simp] theorem rsv1Field_wordOf (r1 raw stream : Byte) (r0 mode : BitVec 2) (op : BitVec 4) :
    rsv1Field (wordOf r1 raw stream r0 mode op) = r1 := by
  apply BitVec.eq_of_toNat_eq
  rw [rsv1Field, BitVec.extractLsb'_toNat, wordOf_toNat, Nat.shiftRight_eq_div_pow]
  have := op.isLt
  have := mode.isLt
  have := r0.isLt
  have := stream.isLt
  have := raw.isLt
  have := r1.isLt
  omega

@[simp] theorem opField_assemble (op : BitVec 4) (mode : BitVec 2) (stream raw : Byte) : opField (assemble op mode stream raw) = op :=
  opField_wordOf ..

@[simp] theorem modeField_assemble (op : BitVec 4) (mode : BitVec 2) (stream raw : Byte) : modeField (assemble op mode stream raw) = mode :=
  modeField_wordOf ..

@[simp] theorem rsv0Field_assemble (op : BitVec 4) (mode : BitVec 2) (stream raw : Byte) : rsv0Field (assemble op mode stream raw) = 0#2 :=
  rsv0Field_wordOf ..

@[simp] theorem streamField_assemble (op : BitVec 4) (mode : BitVec 2) (stream raw : Byte) : streamField (assemble op mode stream raw) = stream :=
  streamField_wordOf ..

@[simp] theorem rawField_assemble (op : BitVec 4) (mode : BitVec 2) (stream raw : Byte) : rawField (assemble op mode stream raw) = raw :=
  rawField_wordOf ..

@[simp] theorem rsv1Field_assemble (op : BitVec 4) (mode : BitVec 2) (stream raw : Byte) : rsv1Field (assemble op mode stream raw) = 0#8 :=
  rsv1Field_wordOf ..

/-- A word is its six fields put together. -/
theorem wordOf_fields (w : Word) :
    wordOf (rsv1Field w) (rawField w) (streamField w) (rsv0Field w) (modeField w) (opField w) = w := by
  have hw := w.isLt
  apply BitVec.eq_of_toNat_eq
  rw [wordOf_toNat]
  simp only [rsv0Field, rsv1Field, opField, modeField, streamField, rawField, BitVec.extractLsb'_toNat, Nat.shiftRight_eq_div_pow]
  omega

/-- A mask works on each field alone. -/
theorem wordOf_and (r1 raw stream r1' raw' stream' : Byte) (r0 mode r0' mode' : BitVec 2) (op op' : BitVec 4) :
    wordOf r1 raw stream r0 mode op &&& wordOf r1' raw' stream' r0' mode' op' =
      wordOf (r1 &&& r1') (raw &&& raw') (stream &&& stream') (r0 &&& r0') (mode &&& mode') (op &&& op') := by
  refine (BitVec.and_append (x₁ := r1 ++ raw ++ stream ++ r0 ++ mode) (x₂ := r1' ++ raw' ++ stream' ++ r0' ++ mode')).trans ?_
  rw [BitVec.and_append, BitVec.and_append, BitVec.and_append, BitVec.and_append]
  rfl

/-- Two words are equal when all their fields are. -/
theorem wordOf_inj {r1 raw stream r1' raw' stream' : Byte} {r0 mode r0' mode' : BitVec 2} {op op' : BitVec 4} :
    wordOf r1 raw stream r0 mode op = wordOf r1' raw' stream' r0' mode' op' ↔
      op = op' ∧ mode = mode' ∧ r0 = r0' ∧ stream = stream' ∧ raw = raw' ∧ r1 = r1' := by
  refine ⟨fun h => ⟨?_, ?_, ?_, ?_, ?_, ?_⟩, fun ⟨h1, h2, h3, h4, h5, h6⟩ => by rw [h1, h2, h3, h4, h5, h6]⟩
  · simpa using congrArg opField h
  · simpa using congrArg modeField h
  · simpa using congrArg rsv0Field h
  · simpa using congrArg streamField h
  · simpa using congrArg rawField h
  · simpa using congrArg rsv1Field h

/-- A word whose reserved fields are 0 is assembled from its other fields. -/
theorem assemble_of_fields {w : Word} (h0 : rsv0Field w = 0#2) (h1 : rsv1Field w = 0#8) :
    assemble (opField w) (modeField w) (streamField w) (rawField w) = w := by
  rw [assemble_eq, ← h0, ← h1, wordOf_fields]

/-! ### The opcode table's three masks -/

/-- A row that fixes every bit. -/
theorem admits_all (w p : Word) : (w &&& 0xFFFFFFFF#32 == p) = true ↔ w = p := by
  rw [beq_iff_eq, show (0xFFFFFFFF#32 : Word) = BitVec.allOnes 32 from rfl, BitVec.and_allOnes]

/-- A row that leaves `STREAM` and `RAW` free. -/
theorem admits_streamRaw (w : Word) (op : BitVec 4) :
    (w &&& 0xFF0000FF#32 == assemble op 0#2 0#8 0#8) = true ↔
      opField w = op ∧ modeField w = 0#2 ∧ rsv0Field w = 0#2 ∧ rsv1Field w = 0#8 := by
  conv_lhs => rw [← wordOf_fields w]
  rw [beq_iff_eq, show (0xFF0000FF#32 : Word) = wordOf (BitVec.allOnes 8) 0#8 0#8 (BitVec.allOnes 2) (BitVec.allOnes 2) (BitVec.allOnes 4)
    from rfl, wordOf_and, assemble_eq, wordOf_inj]
  simp only [BitVec.and_allOnes, BitVec.and_zero, true_and]

/-- A row that leaves `STREAM` free. -/
theorem admits_stream (w : Word) (op : BitVec 4) :
    (w &&& 0xFFFF00FF#32 == assemble op 0#2 0#8 0#8) = true ↔
      opField w = op ∧ modeField w = 0#2 ∧ rsv0Field w = 0#2 ∧ rawField w = 0#8 ∧ rsv1Field w = 0#8 := by
  conv_lhs => rw [← wordOf_fields w]
  rw [beq_iff_eq, show (0xFFFF00FF#32 : Word) =
    wordOf (BitVec.allOnes 8) (BitVec.allOnes 8) 0#8 (BitVec.allOnes 2) (BitVec.allOnes 2) (BitVec.allOnes 4)
    from rfl, wordOf_and, assemble_eq, wordOf_inj]
  simp only [BitVec.and_allOnes, BitVec.and_zero, true_and]

end Sys2Proof
end

