-- ==== Sys2Proof/Laws/PerInstr.lean ====
section
/-! SUPPORT. Families of facts about every command, one lemma per constructor (30_encoding.md R75). -/

namespace Sys2Proof.Laws.WordChecks

/-- The command's own word passes WF1 to WF5 of R75. -/
def Statement (i : Instr) : Prop :=
  wf1 (encode i) = true ∧ wf2 (encode i) = true ∧ wf3 (encode i) = true ∧ wf4 (encode i) = true ∧ wf5 (encode i) = true

theorem encMiddle : Statement .encMiddle := by simp [Statement, encode, wf1, wf2, wf3, wf4, wf5]
theorem encFirst : Statement .encFirst := by simp [Statement, encode, wf1, wf2, wf3, wf4, wf5]
theorem encLast : Statement .encLast := by simp [Statement, encode, wf1, wf2, wf3, wf4, wf5]
theorem encComplete : Statement .encComplete := by simp [Statement, encode, wf1, wf2, wf3, wf4, wf5]
theorem decInit : Statement .decInit := by simp [Statement, encode, wf1, wf2, wf3, wf4, wf5]
theorem dec : Statement .dec := by simp [Statement, encode, wf1, wf2, wf3, wf4, wf5]
theorem seqExtend (stream raw : Byte) : Statement (.seqExtend stream raw) := by
  simp [Statement, encode, wf1, wf2, wf3, wf4, wf5, isSeqOp]
theorem seqIncrement (stream raw : Byte) : Statement (.seqIncrement stream raw) := by
  simp [Statement, encode, wf1, wf2, wf3, wf4, wf5, isSeqOp]
theorem seqIsEmpty (stream : Byte) : Statement (.seqIsEmpty stream) := by
  simp [Statement, encode, wf1, wf2, wf3, wf4, wf5, isSeqOp]
theorem seqReset (stream : Byte) : Statement (.seqReset stream) := by
  simp [Statement, encode, wf1, wf2, wf3, wf4, wf5, isSeqOp]

end Sys2Proof.Laws.WordChecks
end

