-- ==== Sys2Proof/Laws/Port.lean ====
section
/-! SUPPORT. The bits of the packed registers (30_encoding.md R80). -/

namespace Sys2Proof.Machine

theorem DState.code_bits (d : DState) :
    d.code.getLsbD 0 = (d == .frameStarted || d == .escapePending) ∧ d.code.getLsbD 1 = (d == .inMessage || d == .escapePending) := by
  cases d <;> decide

/-- `STATUS`, bit by bit. -/
theorem State.statusWord_bit (s : State) (k : Nat) :
    s.statusWord.getLsbD k =
      if k = 0 then s.dec.dstValid else if k = 1 then s.dec.ovf else if k = 2 then s.errCmd else if k = 3 then false
      else if k = 4 then (s.dec.dstate == .frameStarted || s.dec.dstate == .escapePending)
      else if k = 5 then (s.dec.dstate == .inMessage || s.dec.dstate == .escapePending) else false := by
  obtain ⟨h0, h1⟩ := s.dec.dstate.code_bits
  change BitVec.getLsbD (0#26 ++ s.dec.dstate.code ++ 0#1 ++ flagBit s.errCmd ++ flagBit s.dec.ovf ++ flagBit s.dec.dstValid :
    BitVec (26 + 2 + 1 + 1 + 1 + 1)) k = _
  simp only [BitVec.getLsbD_append, flagBit, BitVec.getLsbD_ofBool, BitVec.getLsbD_zero]
  by_cases k0 : k = 0
  · simp [k0]
  by_cases k1 : k = 1
  · simp [k1]
  by_cases k2 : k = 2
  · simp [k2]
  by_cases k3 : k = 3
  · simp [k3]
  by_cases k4 : k = 4
  · simpa [k4] using h0
  by_cases k5 : k = 5
  · simpa [k5] using h1
  · simp [k0, k1, k2, k3, k4, k5, show ¬ k < 1 by omega, show ¬ k - 1 < 1 by omega, show ¬ k - 1 - 1 < 1 by omega,
      show ¬ k - 1 - 1 - 1 < 1 by omega, show ¬ k - 1 - 1 - 1 - 1 < 2 by omega]

/-- `SEQ_INFO`, as a number: `INIT`, and `LOW` and `BASELINE` at bits 8 and 16. -/
theorem Stream.infoWord_toNat (x : Stream) :
    x.infoWord.toNat = x.baseline.toNat * 65536 + x.low.toNat * 256 + x.init.toNat := by
  refine (toNat_append_add (0#8 ++ x.baseline ++ x.low ++ 0#7) (flagBit x.init)).trans ?_
  rw [toNat_append_add, toNat_append_add, toNat_append_add]
  have h : (flagBit x.init).toNat = x.init.toNat := by cases x.init <;> rfl
  simp only [BitVec.toNat_ofNat, h]
  omega

/-- `SEQ_INFO`'s fields are the instance's. -/
theorem Stream.infoWord_fields (x : Stream) :
    x.infoWord.extractLsb' 0 1 = flagBit x.init ∧ x.infoWord.extractLsb' 1 7 = 0#7 ∧ x.infoWord.extractLsb' 8 8 = x.low ∧
      x.infoWord.extractLsb' 16 8 = x.baseline ∧ x.infoWord.extractLsb' 24 8 = 0#8 := by
  have h := x.infoWord_toNat
  have hi := Bool.toNat_le x.init
  have hl := x.low.isLt
  have hb := x.baseline.isLt
  have hf : (flagBit x.init).toNat = x.init.toNat := by cases x.init <;> rfl
  refine ⟨?_, ?_, ?_, ?_, ?_⟩ <;> apply BitVec.eq_of_toNat_eq <;>
    simp only [BitVec.extractLsb'_toNat, h, Nat.shiftRight_eq_div_pow, hf, BitVec.toNat_ofNat] <;> omega

end Sys2Proof.Machine
end

