-- ==== Sys2Proof/Tests/Slice0.lean ====
section
/-! SUPPORT. Tests. Each expected value is the spec's: the vectors of 95_test_vectors.md by their ids, or the encoding tables of 30_encoding.md.
The witnesses at the end show, for each statement with hypotheses, concrete inputs that meet all of them together. -/

namespace Sys2Proof.Tests

open Sys2Proof Sys2Proof.Machine

/-! ### Well-formed commands (R75): an ill-formed word or term for each check, which the check refuses -/

theorem test_wf1_refuses_op0 : wf1 0x00000000#32 = false := by decide
theorem test_wf1_refuses_op8 : wf1 0x00000008#32 = false := by decide
theorem test_wf2_refuses_rsv0 : wf2 0x00000041#32 = false := by decide
theorem test_wf2_refuses_rsv1 : wf2 0x01000004#32 = false := by decide
theorem test_wf3_refuses_mode_of_dec : wf3 0x00000013#32 = false := by decide
theorem test_wf4_refuses_stream_of_dec : wf4 0x00000103#32 = false := by decide
theorem test_wf5_refuses_raw_of_seqIsEmpty : wf5 0x00010006#32 = false := by decide
theorem test_wf6_refuses_stream_8_of_8 : wf6 8 0x00000806#32 = false := by decide
theorem test_wf7_refuses_capacity_65536 : wf7 0x00010000#32 0x00000002#32 = false := by decide
theorem test_wf_refuses_seqExtend : Instr.wfWith 8 (.seqExtend 8#8 0#8) = false := by decide
theorem test_wf_refuses_seqIncrement : Instr.wfWith 8 (.seqIncrement 8#8 0#8) = false := by decide
theorem test_wf_refuses_seqIsEmpty : Instr.wfWith 8 (.seqIsEmpty 8#8) = false := by decide
theorem test_wf_refuses_seqReset : Instr.wfWith 8 (.seqReset 8#8) = false := by decide

/-! ### Decoding: each command's word, field by field from R70, R73 and R74: RSV1, RAW, STREAM, RSV0, MODE, OP -/

theorem test_decode_encMiddle :
    decode (0b00000000#8 ++ 0b00000000#8 ++ 0b00000000#8 ++ 0b00#2 ++ 0b00#2 ++ 0b0001#4 : BitVec 32) = .command .encMiddle := by decide
theorem test_decode_encFirst :
    decode (0b00000000#8 ++ 0b00000000#8 ++ 0b00000000#8 ++ 0b00#2 ++ 0b01#2 ++ 0b0001#4 : BitVec 32) = .command .encFirst := by decide
theorem test_decode_encLast :
    decode (0b00000000#8 ++ 0b00000000#8 ++ 0b00000000#8 ++ 0b00#2 ++ 0b10#2 ++ 0b0001#4 : BitVec 32) = .command .encLast := by decide
theorem test_decode_encComplete :
    decode (0b00000000#8 ++ 0b00000000#8 ++ 0b00000000#8 ++ 0b00#2 ++ 0b11#2 ++ 0b0001#4 : BitVec 32) = .command .encComplete := by decide
theorem test_decode_decInit :
    decode (0b00000000#8 ++ 0b00000000#8 ++ 0b00000000#8 ++ 0b00#2 ++ 0b00#2 ++ 0b0010#4 : BitVec 32) = .command .decInit := by decide
theorem test_decode_dec :
    decode (0b00000000#8 ++ 0b00000000#8 ++ 0b00000000#8 ++ 0b00#2 ++ 0b00#2 ++ 0b0011#4 : BitVec 32) = .command .dec := by decide
theorem test_decode_seqExtend :
    decode (0b00000000#8 ++ 0b10000001#8 ++ 0b00000011#8 ++ 0b00#2 ++ 0b00#2 ++ 0b0100#4 : BitVec 32) =
      .command (.seqExtend 0x03#8 0x81#8) := by decide
theorem test_decode_seqIncrement :
    decode (0b00000000#8 ++ 0b10101011#8 ++ 0b00000101#8 ++ 0b00#2 ++ 0b00#2 ++ 0b0101#4 : BitVec 32) =
      .command (.seqIncrement 0x05#8 0xAB#8) := by decide
theorem test_decode_seqIsEmpty :
    decode (0b00000000#8 ++ 0b00000000#8 ++ 0b10000000#8 ++ 0b00#2 ++ 0b00#2 ++ 0b0110#4 : BitVec 32) = .command (.seqIsEmpty 0x80#8) := by
  decide
theorem test_decode_seqReset :
    decode (0b00000000#8 ++ 0b00000000#8 ++ 0b11111111#8 ++ 0b00#2 ++ 0b00#2 ++ 0b0111#4 : BitVec 32) = .command (.seqReset 0xFF#8) := by
  decide

/-- W-13: the same word, with 8 streams and with 256. -/
theorem test_decode_w13 : decodeWith 8 0x00000806#32 = .illegal .noSuchStream ∧ decode 0x00000806#32 = .command (.seqIsEmpty 8#8) := by decide
/-- W-6, W-9, W-11. -/
theorem test_decode_illegal : decode 0x00000048#32 = .illegal .noRow ∧ decode 0x00000041#32 = .illegal .noRow ∧
    decode 0x00000131#32 = .illegal .noRow := by decide
theorem test_decodeTableWord : decodeTableWord 32 0x00FF0304 = some (.seqExtend 3#8 0xFF#8) ∧ decodeTableWord 32 0 = none := by decide

/-! ### One step of each command, on small states -/

/-- What a command leaves, where it answers a next state. -/
def after (i : Instr) (s : State) (holds : State → Bool) : Bool :=
  match exec i s with
  | .next t => holds t
  | .fault _ => false
  | .refused _ => false

/-- What a step leaves, where it answers a next state. -/
def afterStep (s : State) (holds : State → Bool) : Bool :=
  match step s with
  | .next t => holds t
  | .fault _ => false
  | .refused _ => false

/-- Buffer memory with these bytes, none of them 0, at an address. -/
def load (a : Nat) (bytes : List Byte) : Memory := bytes.zipIdx.map fun p => (a + p.2, p.1)

/-- ENC's operands as in 95_test_vectors.md section 2.2: the source at 0x1000, the output at 0x2000. -/
def encOf (bytes : List Byte) : State :=
  { State.reset with arg0 := 0x1000#32, arg1 := BitVec.ofNat 32 bytes.length, arg2 := 0x2000#32, mem := load 0x1000 bytes }

/-- A decoder on the destination 0x3000, with the source bytes at 0x1100. -/
def decOf (st : DState) (cap : BitVec 16) (anchor : BitVec 16) (cursor : BitVec 17) (input : List Byte) (destination : List Byte) : State :=
  { State.reset with
    arg0 := 0x1100#32, arg1 := BitVec.ofNat 32 input.length,
    dec := { dstate := st, dstBase := 0x3000#32, dstCap := cap, dstValid := true, anchor := anchor, cursor := cursor, count := 0#16, ovf := false },
    mem := load 0x1100 input ++ load 0x3000 destination }

/-- Stream 3 preset, every other instance fresh. -/
def streamOf (high : BitVec 56) (low baseline : Byte) : State := State.reset.setStream 3#8 { init := true, high := high, low := low, baseline := baseline }

/-- E-11. -/
theorem test_encMiddle_e11 : after .encMiddle (encOf [0x41#8, 0x7E#8])
    (fun t => t.result == 3#64 && bytesAt t.mem 0x2000#32 0 4 == [0x41#8, 0x7D#8, 0x5E#8, 0#8]) = true := by decide
/-- E-9. -/
theorem test_encFirst_e9 : after .encFirst (encOf [0x41#8])
    (fun t => t.result == 2#64 && bytesAt t.mem 0x2000#32 0 3 == [0x7E#8, 0x41#8, 0#8]) = true := by decide
/-- E-10. -/
theorem test_encLast_e10 : after .encLast (encOf [0x41#8])
    (fun t => t.result == 2#64 && bytesAt t.mem 0x2000#32 0 3 == [0x41#8, 0x7E#8, 0#8]) = true := by decide
/-- E-1. -/
theorem test_encComplete_e1 : after .encComplete (encOf [0x01#8, 0x7E#8, 0x02#8])
    (fun t => t.result == 6#64 && bytesAt t.mem 0x2000#32 0 7 == [0x7E#8, 0x01#8, 0x7D#8, 0x5E#8, 0x02#8, 0x7E#8, 0#8]) = true := by decide
/-- E-4: 5E, 5D and 20 are not escaped. -/
theorem test_encComplete_e4 : after .encComplete (encOf [0x5E#8, 0x5D#8, 0x20#8])
    (fun t => t.result == 5#64 && bytesAt t.mem 0x2000#32 0 5 == [0x7E#8, 0x5E#8, 0x5D#8, 0x20#8, 0x7E#8]) = true := by decide
/-- I-4: re-armed after an overflow in mid-message. -/
theorem test_decInit_i4 : after .decInit
    { State.reset with
      arg0 := 0x3000#32, arg1 := 4#32,
      dec := { Decoder.reset with dstate := .inMessage, dstCap := 4#16, dstValid := true, cursor := 4#17, ovf := true } }
    (fun t => t.dec.dstate == .hunting && t.dec.dstBase == 0x3000#32 && t.dec.dstCap == 4#16 && t.dec.dstValid && t.dec.anchor == 0#16 &&
      t.dec.cursor == 2#17 && t.dec.count == 0#16 && !t.dec.ovf && t.result == 0#64) = true := by decide
/-- W-14. -/
theorem test_decInit_w14 : after .decInit { State.reset with arg1 := 0x10000#32 }
    (fun t => t.errCmd && t.dec == Decoder.reset && t.result == 0#64) = true := by decide
/-- C-1, its second DEC: the message in progress is relocated, an escaped FLAG stored, and the message completed. -/
theorem test_dec_c1 : after .dec
    (decOf .inMessage 16#16 3#16 7#17 [0x7D#8, 0x5E#8, 0x7E#8] [0x01#8, 0xAA#8, 0x41#8, 0xBB#8, 0xCC#8, 0x42#8, 0x43#8])
    (fun t => t.result == 1#64 && t.work.records == [[0x42#8, 0x43#8, 0x7E#8]] && t.dec.dstate == .frameStarted && t.dec.anchor == 5#16 &&
      t.dec.cursor == 7#17 && !t.dec.ovf) = true := by decide
/-- D-12: the second message overflows, the first stays intact. -/
theorem test_dec_d12 : after .dec (decOf .hunting 5#16 0#16 2#17 [0x7E#8, 0x41#8, 0x7E#8, 0x42#8, 0x7E#8] [])
    (fun t => t.result == 0xFFFFFFFFFFFFFFFD#64 && t.work.records == [[0x41#8]] && t.dec.dstate == .frameStarted && t.dec.anchor == 3#16 &&
      t.dec.cursor == 5#17 && t.dec.count == 1#16 && t.dec.ovf) = true := by decide
/-- X-2, its second call. -/
theorem test_seqExtend_x2 : after (.seqExtend 3#8 10#8) (streamOf 0#56 250#8 250#8)
    (fun t => t.result == 266#64 && t.stream 3#8 == { init := true, high := 1#56, low := 10#8, baseline := 250#8 }) = true := by decide
/-- X-6b: HIGH wraps at 2^56. -/
theorem test_seqExtend_x6b : after (.seqExtend 3#8 0x10#8) (streamOf 0xFFFFFFFFFFFFFF#56 0x80#8 0#8)
    (fun t => t.result == 0x10#64 && t.stream 3#8 == { init := true, high := 0#56, low := 0x10#8, baseline := 0#8 }) = true := by decide
/-- X-6: V wraps at 2^64. -/
theorem test_seqIncrement_x6 : after (.seqIncrement 3#8 0xAB#8) (streamOf 0xFFFFFFFFFFFFFF#56 0xFF#8 0#8)
    (fun t => t.result == 0#64 && t.stream 3#8 == { init := true, high := 0#56, low := 0#8, baseline := 0#8 }) = true := by decide
/-- X-13, its last call: the carry from LOW to HIGH. -/
theorem test_seqIncrement_x13 : after (.seqIncrement 3#8 0#8) (streamOf 0#56 0xFF#8 0xFE#8)
    (fun t => t.result == 256#64 && t.stream 3#8 == { init := true, high := 1#56, low := 0#8, baseline := 0xFE#8 }) = true := by decide
/-- X-14: empty before the first call, and not after one that returned 0. -/
theorem test_seqIsEmpty_x14 : after (.seqIsEmpty 3#8) State.reset (fun t => t.result == 1#64) = true ∧
    after (.seqIsEmpty 3#8) (streamOf 0#56 0#8 0#8) (fun t => t.result == 0#64) = true := by decide
/-- X-15: a reset instance is fresh; X-16: another is not touched. -/
theorem test_seqReset_x15 : after (.seqReset 3#8) ((streamOf 1#56 9#8 9#8).setStream 4#8 { init := true, high := 0#56, low := 7#8, baseline := 7#8 })
    (fun t => t.result == 0#64 && t.stream 3#8 == Stream.fresh && (t.stream 4#8).low == 7#8) = true := by decide

/-! ### The host's port and steps -/

/-- G-1, G-2, G-6, G-7. -/
theorem test_port_after_reset : State.reset.readReg 0x20 = 2#32 ∧ State.reset.readReg 0x18 = 0#32 ∧ State.reset.readReg 0x40 = 0#32 ∧
    State.reset.readReg 0x00 = 0#32 := by decide
/-- G-4. -/
theorem test_port_g4 : State.readReg { State.reset with dec := { Decoder.reset with dstate := .inMessage, ovf := true, dstValid := true } } 0x18 =
    0x23#32 := by decide
/-- G-5. -/
theorem test_port_g5 : (State.reset.writeReg 0x30 0x1FF#32).readReg 0x30 = 0xFF#32 := by decide
/-- G-8. -/
theorem test_port_g8 : State.readReg { streamOf 1#56 10#8 250#8 with seqSel := 3#8 } 0x34 = 0x00FA0A01#32 := by decide
/-- W-3: the first command after reset. -/
theorem test_step_w3 : afterStep (State.reset.withFetchWord 32 0x00AB0005) (fun t => t.result == 1#64 && (t.stream 0#8).low == 1#8 && !t.errCmd) =
    true := by decide
/-- W-4: a refused word. -/
theorem test_step_w4 : afterStep (State.reset.withFetchWord 32 0x00000000) (fun t => t.errCmd && t.result == 0#64) = true := by decide
/-- R56: an access the port does not admit. -/
theorem test_step_refuses_byte_access : step { State.reset with host := [.regRead 0x18 8] } = .refused .registerAccess := by rfl
/-- R221: reset between two accesses. -/
theorem test_step_reset : afterStep { streamOf 1#56 10#8 250#8 with errCmd := true, host := [.reset] }
    (fun t => !t.errCmd && t.stream 3#8 == Stream.fresh && t.dec.cursor == 2#17) = true := by decide

/-! ### Witnesses: inputs that meet all the hypotheses of a statement together -/

theorem witness_DecodeOfEncode : Instr.wf (.seqExtend 255#8 255#8) = true ∧ Instr.wf .encMiddle = true := by decide
theorem witness_EncodeOfDecode : decode 0x00FFFF04#32 = .command (.seqExtend 255#8 255#8) := by decide
theorem witness_WellFormedWordsRun :
    let ok (w arg1 : Word) := wf1 w && wf2 w && wf3 w && wf4 w && wf5 w && wf6 Config.nStreams w && wf7 arg1 w
    ok 0x00000002#32 0xFFFF#32 = true ∧ ok 0x00000002#32 0x10000#32 = false ∧ ok 0x00000003#32 0xFFFFFFFF#32 = true ∧ ok 0#32 0#32 = false := by
  decide
theorem witness_StepRunsTheDecodedCommand :
    (State.reset.withFetchWord 32 0x31).host = .regWrite 0x00 32 0x31#32 :: [] ∧ decode 0x31#32 = .command .encComplete := by decide
theorem witness_RefusedWordSetsErrCmdOnly_illegal :
    (State.reset.withFetchWord 32 0x13).host = .regWrite 0x00 32 0x13#32 :: [] ∧ decode 0x13#32 = .illegal .noRow := by decide
theorem witness_RefusedWordSetsErrCmdOnly_capacity :
    let s := { State.reset.withFetchWord 32 2 with arg1 := 0x10000#32 }
    s.host = .regWrite 0x00 32 2#32 :: [] ∧ decode 2#32 = .command .decInit ∧ 0xFFFF < s.arg1.toNat := by decide
theorem witness_RegisterReadChangesNothing :
    State.host { State.reset with host := [.regRead 0x3C 32] } = .regRead 0x3C 32 :: [] ∧ 0x3C % 4 = 0 := by decide
theorem witness_RegisterWrites :
    (∀ offset ∈ [0x04, 0x08, 0x0C, 0x30], offset % 4 = 0 ∧ offset ≠ 0) ∧
    (∀ offset ∈ [0x10, 0x3C, 0x40], offset % 4 = 0 ∧ offset ≠ 0 ∧ offset ≠ 0x04 ∧ offset ≠ 0x08 ∧ offset ≠ 0x0C ∧ offset ≠ 0x30) ∧
    State.host { State.reset with host := [.regWrite 0x30 32 0x1FF#32] } = .regWrite 0x30 32 0x1FF#32 :: [] := by decide
theorem witness_OnlyUnadmittedAccessesStop :
    State.host { State.reset with host := [.regWrite 0x02 32 0#32] } = .regWrite 0x02 32 0#32 :: [] ∧ 0x02 % 4 ≠ 0 ∧
    State.host { State.reset with host := [.regRead 0x18 8] } = .regRead 0x18 8 :: [] ∧ 8 ≠ 32 := by decide
/-- The other direction: a step that answers no next state. -/
theorem witness_OnlyUnadmittedAccessesStop_stops : ∀ t, step { State.reset with host := [.regRead 0x00 64] } ≠ .next t := nofun
theorem witness_ResetStepKeepsBufferMemory : State.host { encOf [1#8] with host := [.reset] } = .reset :: [] := by decide
theorem witness_HostMemoryReadAfterWrite :
    State.host { State.reset with host := [.memWrite 0xFFFFFFFF#32 7#8, .memRead 0#32] } = .memWrite 0xFFFFFFFF#32 7#8 :: .memRead 0#32 :: [] := by
  decide
theorem witness_CommandsReadOnlyTheirUnit :
    let s := encOf [1#8]
    let s' := { encOf [1#8] with errCmd := true, seqSel := 9#8, result := 5#64 }
    s.arg0 = s'.arg0 ∧ s.arg1 = s'.arg1 ∧ s.arg2 = s'.arg2 ∧ s.mem = s'.mem ∧ s.dec = s'.dec ∧ s.arg1.toNat ≤ 0xFFFF ∧
      s.stream 255#8 = s'.stream 255#8 := by decide
theorem witness_ErrCmdIsSticky_set : ∃ t, step { State.reset with errCmd := true, host := [.regRead 0x18 32] } = .next t := ⟨_, rfl⟩
theorem witness_ErrCmdIsSticky_reset : ∃ t, step { State.reset with errCmd := true, host := [.reset] } = .next t := ⟨_, rfl⟩
theorem witness_ErrCmdIsSticky_clear : ∃ t, step (State.reset.withFetchWord 32 0) = .next t ∧ State.reset.errCmd = false := ⟨_, rfl, rfl⟩
theorem witness_OnlyCommandsChangeTheUnits : ∃ t, step { State.reset with host := [.memWrite 1#32 1#8] } = .next t := ⟨_, rfl⟩
theorem witness_EncWithoutOperandsReturnsZero :
    State.arg1 { encOf [] with arg0 := 1#32 } = 0#32 ∧ State.arg0 { encOf [1#8] with arg0 := 0#32 } = 0#32 ∧
    State.arg2 { encOf [1#8] with arg2 := 0#32 } = 0#32 ∧
    ¬ ((encOf [1#8]).arg1 = 0#32 ∨ (encOf [1#8]).arg0 = 0#32 ∨ (encOf [1#8]).arg2 = 0#32) := by decide
theorem witness_EncCompletesAndWritesOnlyItsOutput :
    Instr.encLast ∈ [Instr.encMiddle, .encFirst, .encLast, .encComplete] ∧ (encOf [1#8]).arg0 ≠ 0#32 ∧ (encOf [1#8]).arg1 ≠ 0#32 ∧
    (encOf [1#8]).arg2 ≠ 0#32 := by decide
theorem witness_EncWritesTheStuffedFrame :
    let s := { encOf [0x7E#8, 0x41#8] with arg2 := 0x1002#32 }
    (Instr.encComplete, BlockMode.complete) ∈ modeOf ∧ s.arg0 ≠ 0#32 ∧ s.arg1 ≠ 0#32 ∧ s.arg2 ≠ 0#32 ∧
    apart s.arg0 s.arg1.toNat s.arg2 (frame .complete s.sourceBytes).length := by decide
theorem witness_EncByteCount :
    let s := { encOf [0x7E#8, 0x7D#8] with arg2 := 0x1002#32 }
    (Instr.encComplete, BlockMode.complete) ∈ modeOf ∧ s.arg0 ≠ 0#32 ∧ s.arg1 ≠ 0#32 ∧ s.arg2 ≠ 0#32 ∧
    apart s.arg0 s.arg1.toNat s.arg2 (2 * s.arg1.toNat + 2) := by decide
theorem witness_EncOutputIsEscaped :
    (Instr.encFirst, BlockMode.first) ∈ modeOf ∧ (encOf [0x7D#8]).arg0 ≠ 0#32 ∧ (encOf [0x7D#8]).arg1 ≠ 0#32 ∧ (encOf [0x7D#8]).arg2 ≠ 0#32 ∧
    ∃ t, exec .encFirst (encOf [0x7D#8]) = .next t ∧ t.result.toNat ≤ 2 ^ 32 ∧ 1 < t.result.toNat := by
  refine ⟨by decide, by decide, by decide, by decide, _, rfl, by decide, by decide⟩
/-- E-13: FIRST `41 42`, MIDDLE `7D`, LAST `43`; here with the output just below the top of memory. -/
theorem witness_SplitEncodingIsCompleteEncoding :
    let m := load 0x1000 [0x41#8, 0x42#8, 0x7D#8, 0x43#8]
    let pieces : List (Word × Nat) := [(0x1000#32, 2), (0x1002#32, 1), (0x1003#32, 1)]
    let whole := frame .complete (pieces.flatMap fun p => bytesAt m p.1 0 p.2)
    (0xFFFFFFF9#32 : Word) ≠ 0#32 ∧ (∀ p ∈ pieces, p.1 ≠ 0#32 ∧ 1 ≤ p.2 ∧ p.2 < 2 ^ 32 ∧ apart p.1 p.2 0xFFFFFFF9#32 whole.length) ∧
    (0xFFFFFFF9#32 : Word).toNat + whole.length = 2 ^ 32 := by decide
theorem witness_DecInitArmsTheDecoder :
    (State.arg1 { State.reset with arg1 := 0xFFFF#32 }).toNat ≤ 0xFFFF ∧ 0xFFFF < (State.arg1 { State.reset with arg1 := 0x10000#32 }).toNat := by
  decide
theorem witness_DecErrorCodesInOrder :
    Decoder.reset.dstValid = false ∧
    (let d := { Decoder.reset with dstValid := true }; d.dstValid = true ∧ d.dstCap = 0#16) ∧
    (let d := { Decoder.reset with dstValid := true, dstCap := 1#16, ovf := true }; d.dstValid = true ∧ d.dstCap ≠ 0#16 ∧ d.ovf = true) := by
  decide
theorem witness_DecWithoutInputRelocates :
    let s := decOf .inMessage 16#16 3#16 7#17 [] [0x01#8, 0xAA#8, 0x41#8, 0xBB#8, 0xCC#8, 0x42#8, 0x43#8]
    s.dec.ready ∧ s.dec.Inv ∧ s.arg1 = 0#32 := by decide
theorem witness_DecWithoutInputRelocates_absent :
    let s := { decOf .escapePending 16#16 3#16 6#17 [0x7E#8] [] with arg0 := 0#32 }
    s.dec.ready ∧ s.dec.Inv ∧ s.arg0 = 0#32 := by decide
theorem witness_ByteInHunting : (decOf .hunting 16#16 0#16 2#17 [] []).work.dec.dstate = .hunting ∧ 0x7D#8 ≠ 0x7E#8 := by decide
theorem witness_ByteInFrameStarted :
    (let w := (decOf .frameStarted 3#16 0#16 2#17 [] []).work
     w.dec.dstate = .frameStarted ∧ 0x41#8 ≠ 0x7E#8 ∧ 0x41#8 ≠ 0x7D#8 ∧ w.dec.cursor.toNat < w.dec.dstCap.toNat) ∧
    (let w := (decOf .frameStarted 2#16 0#16 2#17 [] []).work
     w.dec.dstate = .frameStarted ∧ 0x41#8 ≠ 0x7E#8 ∧ 0x41#8 ≠ 0x7D#8 ∧ w.dec.dstCap.toNat ≤ w.dec.cursor.toNat) := by decide
theorem witness_ByteInMessage :
    (let w := (decOf .inMessage 5#16 0#16 4#17 [] []).work
     w.dec.dstate = .inMessage ∧ 0x5E#8 ≠ 0x7E#8 ∧ 0x5E#8 ≠ 0x7D#8 ∧ w.dec.cursor.toNat < w.dec.dstCap.toNat) ∧
    (let w := (decOf .inMessage 4#16 0#16 4#17 [] []).work
     w.dec.dstate = .inMessage ∧ 0x5E#8 ≠ 0x7E#8 ∧ 0x5E#8 ≠ 0x7D#8 ∧ w.dec.dstCap.toNat ≤ w.dec.cursor.toNat) := by decide
theorem witness_ByteInEscapePending :
    (let w := (decOf .escapePending 3#16 0#16 2#17 [] []).work
     w.dec.dstate = .escapePending ∧ 0x7D#8 ≠ 0x7E#8 ∧ w.dec.cursor.toNat < w.dec.dstCap.toNat) ∧
    (let w := (decOf .escapePending 2#16 0#16 2#17 [] []).work
     w.dec.dstate = .escapePending ∧ 0x7D#8 ≠ 0x7E#8 ∧ w.dec.dstCap.toNat ≤ w.dec.cursor.toNat) := by decide

/-- D-1's DEC; the source ends right below the destination. -/
def frameState : State :=
  { decOf .hunting 16#16 0#16 2#17 [0x7E#8, 0x01#8, 0x7D#8, 0x5E#8, 0x02#8, 0x7E#8] [] with
    arg0 := 0x2FFA#32, mem := load 0x2FFA [0x7E#8, 0x01#8, 0x7D#8, 0x5E#8, 0x02#8, 0x7E#8] }

/-- The hypotheses the DEC statements share. -/
theorem witness_frameState : frameState.dec.ready ∧ frameState.dec.Inv ∧ frameState.arg0 ≠ 0#32 ∧ frameState.arg1 ≠ 0#32 ∧
    apart frameState.arg0 frameState.arg1.toNat frameState.dec.dstBase frameState.dec.dstCap.toNat := by decide
theorem witness_DecFeedsItsSourceBytes_going : ∃ w, feedBytes frameState.sourceBytes frameState.work.begin = .going w := ⟨_, rfl⟩
theorem witness_DecFeedsItsSourceBytes_overflow :
    let s := decOf .hunting 5#16 0#16 2#17 [0x7E#8, 0x41#8, 0x7E#8, 0x42#8, 0x7E#8] []
    s.dec.ready ∧ s.dec.Inv ∧ s.arg0 ≠ 0#32 ∧ s.arg1 ≠ 0#32 ∧ apart s.arg0 s.arg1.toNat s.dec.dstBase s.dec.dstCap.toNat ∧
      ∃ w, feedBytes s.sourceBytes s.work.begin = .overflow w :=
  ⟨by decide, by decide, by decide, by decide, by decide, _, rfl⟩
theorem witness_DecWritesOnlyTheDestination : (decOf .inMessage 65535#16 3#16 65535#17 [] []).dec.Inv := by decide
theorem witness_RetiredRecordsAreNotOverwritten :
    (decOf .inMessage 16#16 3#16 7#17 [] []).work.dec.Inv ∧ 2 < (decOf .inMessage 16#16 3#16 7#17 [] []).work.dec.anchor.toNat := by decide
theorem witness_OverflowIsStickyUntilDecInit :
    let s := decOf .hunting 5#16 0#16 2#17 [0x7E#8, 0x41#8, 0x7E#8, 0x42#8, 0x7E#8] []
    s.dec.ready ∧ s.dec.Inv ∧ ∃ t, exec .dec s = .next t ∧ t.dec.ovf = true ∧ t.arg1.toNat ≤ 0xFFFF :=
  ⟨by decide, by decide, _, rfl, by decide, by decide⟩
theorem witness_DecLeavesWholeRecords : ∃ t, exec .dec frameState = .next t ∧ t.dec.ovf = false ∧ t.dec.count = 1#16 :=
  ⟨_, rfl, by decide, by decide⟩
theorem witness_MessageFitsExactlyWhenRoom :
    let w := (decOf .frameStarted 6#16 3#16 5#17 [] []).work
    w.dec.Inv ∧ w.dec.dstate = .frameStarted ∧ [0x7E#8] ≠ ([] : List Byte) ∧ w.dec.anchor.toNat + 2 + [0x7E#8].length = w.dec.dstCap.toNat := by
  decide
theorem witness_MessageFitsExactlyWhenRoom_going :
    ∃ w', feedBytes (([0x7E#8] : List Byte).flatMap wireBytes ++ [0x7E#8]) (decOf .frameStarted 6#16 3#16 5#17 [] []).work = .going w' := ⟨_, rfl⟩
theorem witness_SingleFrameRoundTrip :
    ([0x01#8, 0x7E#8, 0x02#8] : List Byte) ≠ [] ∧ [0x01#8, 0x7E#8, 0x02#8].length + 2 ≤ frameState.dec.dstCap.toNat ∧
    frameState.sourceBytes = frame .complete [0x01#8, 0x7E#8, 0x02#8] ∧ frameState.dec.dstate ≠ .inMessage := by decide
theorem witness_SingleFrameRoundTrip_inMessage :
    let s := decOf .inMessage 6#16 0#16 3#17 (frame .complete [0x42#8]) [0xAA#8, 0xAA#8, 0x41#8]
    [0x42#8].length + 2 ≤ s.dec.dstCap.toNat ∧ s.dec.ready ∧ s.dec.Inv ∧ s.arg0 ≠ 0#32 ∧ s.sourceBytes = frame .complete [0x42#8] ∧
    apart s.arg0 s.arg1.toNat s.dec.dstBase s.dec.dstCap.toNat ∧ s.dec.dstate = .inMessage ∧
    s.work.partialPayload.length + 2 + [0x42#8].length + 2 = s.dec.dstCap.toNat := by decide
theorem witness_EncodeThenDecodeIsIdentity :
    let s := encOf [0x01#8, 0x7E#8, 0x02#8]
    s.arg0 ≠ 0#32 ∧ s.arg1 ≠ 0#32 ∧ s.arg2 ≠ 0#32 ∧ 0x2008#32 ≠ 0#32 ∧ s.arg1.toNat ≤ 65533 ∧ s.arg1.toNat + 2 ≤ (5#32).toNat ∧
    (5#32).toNat ≤ 0xFFFF ∧ apart s.arg0 s.arg1.toNat s.arg2 (2 * s.arg1.toNat + 2) ∧
    apart s.arg2 (2 * s.arg1.toNat + 2) 0x2008#32 (5#32).toNat := by decide
theorem witness_AbortedFragmentIsDropped :
    let s := decOf .frameStarted 4#16 0#16 2#17
      (0x7E#8 :: (([0x41#8, 0x7D#8] : List Byte).flatMap wireBytes ++ [0x7D#8, 0x7E#8] ++ frame .complete [0x43#8])) []
    ([0x43#8] : List Byte) ≠ [] ∧ [0x43#8].length + 2 ≤ s.dec.dstCap.toNat ∧ [0x41#8, 0x7D#8].length + 2 ≤ s.dec.dstCap.toNat ∧ s.dec.ready ∧
    s.dec.Inv ∧ s.dec.dstate = .frameStarted ∧ s.arg0 ≠ 0#32 ∧
    s.sourceBytes = 0x7E#8 :: (([0x41#8, 0x7D#8] : List Byte).flatMap wireBytes ++ [0x7D#8, 0x7E#8] ++ frame .complete [0x43#8]) ∧
    apart s.arg0 s.arg1.toNat s.dec.dstBase s.dec.dstCap.toNat := by decide
/-- S-6: the empty fragment, from HUNTING. -/
theorem witness_AbortedFragmentIsDropped_hunting :
    let s := decOf .hunting 4#16 0#16 2#17
      (0x7E#8 :: (([] : List Byte).flatMap wireBytes ++ [0x7D#8, 0x7E#8] ++ frame .complete [0x43#8])) []
    ([0x43#8] : List Byte) ≠ [] ∧ [0x43#8].length + 2 ≤ s.dec.dstCap.toNat ∧ ([] : List Byte).length + 2 ≤ s.dec.dstCap.toNat ∧ s.dec.ready ∧
    s.dec.Inv ∧ s.dec.dstate = .hunting ∧ s.arg0 ≠ 0#32 ∧
    s.sourceBytes = 0x7E#8 :: (([] : List Byte).flatMap wireBytes ++ [0x7D#8, 0x7E#8] ++ frame .complete [0x43#8]) ∧
    apart s.arg0 s.arg1.toNat s.dec.dstBase s.dec.dstCap.toNat := by decide
theorem witness_ChunkedDeliveryAgrees :
    ([1, 0, 5] : List Nat).sum = frameState.arg1.toNat ∧ frameState.arg0.toNat + frameState.arg1.toNat ≤ 2 ^ 32 ∧
    ∃ t, exec .dec frameState = .next t ∧ t.dec.ovf = false := ⟨by decide, by decide, _, rfl, by decide⟩
theorem witness_DecInitRecoversFromAnyState :
    let s := { State.reset with
      arg0 := 0x3000#32, arg1 := 3#32, mem := load 0x1000 (frame .complete [0x43#8]),
      dec := { Decoder.reset with dstate := .escapePending, cursor := 0#17, ovf := true } }
    ([0x43#8] : List Byte) ≠ [] ∧ s.arg0 ≠ 0#32 ∧ s.arg1.toNat ≤ 0xFFFF ∧ [0x43#8].length + 2 ≤ s.arg1.toNat ∧ 0x1000#32 ≠ 0#32 ∧
    bytesAt s.mem 0x1000#32 0 (frame .complete [0x43#8]).length = frame .complete [0x43#8] ∧
    apart 0x1000#32 (frame .complete [0x43#8]).length s.arg0 s.arg1.toNat := by decide

/-- The invariants of the state hold after reset, and of states a run reaches in mid-message. -/
theorem witness_invariants :
    State.reset.dec.Inv ∧ State.reset.dec.CountBound ∧ (decOf .inMessage 16#16 3#16 7#17 [] []).dec.Inv ∧
    (decOf .inMessage 16#16 3#16 7#17 [] []).dec.CountBound ∧ (decOf .inMessage 16#16 3#16 7#17 [] []).mem.wf = true := by decide
theorem witness_StreamsStayFreshUntilInitialised : State.reset.StreamsInv ∧ (State.reset.stream 255#8).init = false := by decide
theorem witness_step : ∃ t, step (frameState.withFetchWord 32 3) = .next t := ⟨_, rfl⟩
theorem witness_ResetAndDecInitMeetDecoderInvariant : (State.arg1 { frameState with arg1 := 0xFFFF#32 }).toNat ≤ 0xFFFF := by decide
theorem witness_SeqExtendResult :
    (State.reset.stream 3#8).init = false ∧
    (((streamOf 1#56 250#8 250#8).stream 3#8).init = true ∧ (249#8).toNat < ((streamOf 1#56 250#8 250#8).stream 3#8).low.toNat) ∧
    (((streamOf 1#56 250#8 250#8).stream 3#8).init = true ∧ ((streamOf 1#56 250#8 250#8).stream 3#8).low.toNat ≤ (250#8).toNat) := by decide
theorem witness_SeqIsEmptyResult : (State.reset.stream 3#8).init = false ∧ ((streamOf 0#56 0#8 0#8).stream 3#8).init = true ∧
    (∃ t, exec (.seqReset 3#8) State.reset = .next t) ∧ (∃ t, exec (.seqIncrement 3#8 0#8) State.reset = .next t) :=
  ⟨by decide, by decide, ⟨_, rfl⟩, ⟨_, rfl⟩⟩
theorem witness_StreamsAreIndependent : (4#8 : Byte) ≠ 3#8 ∧
    Instr.seqReset 3#8 ∈ [Instr.seqExtend 3#8 0#8, .seqIncrement 3#8 0#8, .seqIsEmpty 3#8, .seqReset 3#8] := by decide
theorem witness_ExtendOnInitialised : ((streamOf 0xFFFFFFFFFFFFFF#56 0xFF#8 0#8).stream 3#8).init = true := by decide
/-- Gaps of 1 and of 255, from a number above 255 (as in X-10). -/
theorem witness_ExtendTracksTrueSampleNumbers :
    State.reset.stream 3#8 = Stream.fresh ∧ [300, 301, 556].IsChain (fun a b => a < b ∧ b - a ≤ 255) ∧ ∀ t ∈ [300, 301, 556], t < 2 ^ 64 := by
  decide
theorem witness_IncrementsCountFromOne : State.reset.stream 255#8 = Stream.fresh := by decide

end Sys2Proof.Tests
end

section
/-! PROOFS. Which accesses of the host can change which part of the block's state (00_scope.md R6, 10_state.md R22 to R24). -/

namespace Sys2Proof.Machine

/-- The registers that are the host's alone to write: the arguments and `SEQ_SEL` (R22, R24). -/
def SameHostRegisters (s t : State) : Prop :=
  t.arg0 = s.arg0 ∧ t.arg1 = s.arg1 ∧ t.arg2 = s.arg2 ∧ t.seqSel = s.seqSel

/-- What the block's units hold and return: `RESULT`, the decoder and the streams (R23, R26 to R33). -/
def SameUnits (s t : State) : Prop := t.result = s.result ∧ t.dec = s.dec ∧ t.streams = s.streams

theorem SameHostRegisters.refl (s : State) : SameHostRegisters s s := ⟨rfl, rfl, rfl, rfl⟩

theorem SameUnits.refl (s : State) : SameUnits s s := ⟨rfl, rfl, rfl⟩

theorem State.encode_sameHostRegisters (mode : BlockMode) (s : State) : SameHostRegisters s (s.encode mode) := by
  rcases s.encode_cases mode with ⟨-, e⟩ | ⟨-, e⟩ <;> rw [e] <;> exact .refl s

/-- No command writes an argument register or `SEQ_SEL` (R22, R24). -/
theorem exec_sameHostRegisters {i : Instr} {s t : State} (h : exec i s = .next t) : SameHostRegisters s t := by
  rcases exec_cases i s with ⟨mode, -, e⟩ | ⟨-, -, e⟩ | ⟨-, -, e⟩ | ⟨-, _, e, -⟩ | ⟨-, -, e⟩ | ⟨_, -, _, _, e, -⟩ | ⟨_, _, -, e⟩ <;>
    cases e.symm.trans h
  case inl => exact s.encode_sameHostRegisters mode
  all_goals exact .refl s

/-- A step with no access to come, and one that reads a register or uses buffer memory, leaves the whole block alone; a plain register write
leaves the units alone, and a command word the host's registers. A reset may change either. -/
theorem step_sameUnits_or_sameHostRegisters {s t : State} (h : step s = .next t) :
    (SameUnits s t ∧ SameHostRegisters s t) ∨
    (∃ w rest, s.host = .regWrite 0x00 32 w :: rest ∧ SameHostRegisters s t) ∨
    (∃ offset v rest, s.host = .regWrite offset 32 v :: rest ∧ offset ≠ 0 ∧ SameUnits s t) ∨
    (∃ rest, s.host = .reset :: rest) := by
  rcases step_cases s with ⟨-, e⟩ | ⟨w, rest, i, hh, -, e⟩ | ⟨w, rest, _, hh, -, e⟩ | ⟨offset, v, rest, hh, -, h0, e⟩ | ⟨_, _, -, -, e⟩ |
    ⟨_, _, _, -, e⟩ | ⟨_, _, -, e⟩ | ⟨rest, hh, -⟩ | ⟨_, _, _, -, -, e⟩
  · cases e.symm.trans h -- the host waits
    exact .inl ⟨.refl s, .refl s⟩
  · have hr : SameHostRegisters (s.withHost rest) t := exec_sameHostRegisters (e.symm.trans h)
    exact .inr (.inl ⟨w, rest, hh, hr⟩)
  · cases e.symm.trans h -- an illegal word
    exact .inr (.inl ⟨w, rest, hh, .refl s⟩)
  · cases e.symm.trans h -- a plain register write
    obtain ⟨hres, -, hdec, hstr, -⟩ := (s.withHost rest).writeReg_keeps offset v
    exact .inr (.inr (.inl ⟨offset, v, rest, hh, h0, hres, hdec, hstr⟩))
  · cases e.symm.trans h -- a register read
    exact .inl ⟨.refl s, .refl s⟩
  · cases e.symm.trans h -- a write of buffer memory
    exact .inl ⟨.refl s, .refl s⟩
  · cases e.symm.trans h -- a read of buffer memory
    exact .inl ⟨.refl s, .refl s⟩
  · exact .inr (.inr (.inr ⟨rest, hh⟩))
  · cases e.symm.trans h -- an access the port does not admit answers no next state

/-- Settles O20, by the kinds of step: what a step leaves alone follows from the access it takes. -/
theorem onlyCommandsChangeTheUnits : Obligations.OnlyCommandsChangeTheUnits := by
  intro s t h
  rcases step_sameUnits_or_sameHostRegisters h with ⟨hu, hr⟩ | ⟨w, rest, hh, hr⟩ | ⟨offset, v, rest, hh, h0, hu⟩ | ⟨rest, hh⟩
  · exact ⟨.inr (.inr hu), .inr (.inr hr)⟩
  · exact ⟨.inl ⟨w, rest, hh⟩, .inr (.inr hr)⟩
  · exact ⟨.inr (.inr hu), .inl ⟨offset, v, rest, hh, h0⟩⟩
  · exact ⟨.inr (.inl ⟨rest, hh⟩), .inr (.inl ⟨rest, hh⟩)⟩

end Sys2Proof.Machine
end

section
/-! PROOFS. The block's state (10_state.md): what a command can do to the decoder and to `ERR_CMD`, what follows for every step (R25, R31, R32), and the
values after reset and after a SEQ_* command (R34, R35, R37). -/

namespace Sys2Proof.Machine

/-! ### The decoder (R32) -/

/-- The decoder after reset is the one DEC_INIT arms without a destination. -/
theorem Decoder.reset_eq_armed : Decoder.reset = Decoder.armed 0#32 0#16 := rfl

theorem Decoder.reset_inv : Decoder.reset.Inv := Decoder.reset_eq_armed ▸ Decoder.armed_inv 0#32 0#16

/-- ENC leaves the decoder alone (R104). -/
@[simp] theorem State.encode_dec (mode : BlockMode) (s : State) : (s.encode mode).dec = s.dec := by
  rcases s.encode_cases mode with ⟨-, e⟩ | ⟨-, e⟩ <;> rw [e] <;> rfl

/-- What a command can leave of the decoder: itself, the one a DEC_INIT arms, or the one the bytes of a DEC lead to (R104). -/
theorem exec_dec_cases {i : Instr} {s t : State} (h : exec i s = .next t) :
    t.dec = s.dec ∨ (i = .decInit ∧ s.arg1.toNat ≤ 0xFFFF ∧ t.dec = Decoder.armed s.arg0 s.capacityArg) ∨
      (i = .dec ∧ s.dec.ready ∧ t.dec = s.feed.work.dec) := by
  rcases exec_cases i s with ⟨mode, -, e⟩ | ⟨hi, hc, e⟩ | ⟨-, -, e⟩ | ⟨-, _, e, -⟩ | ⟨hi, hr, e⟩ | ⟨_, -, _, _, e, -⟩ | ⟨_, _, -, e⟩ <;>
    cases e.symm.trans h
  · exact .inl (s.encode_dec mode)
  · exact .inr (.inl ⟨hi, hc, rfl⟩)
  · exact .inl rfl -- a refused DEC_INIT
  · exact .inl rfl -- a DEC that fails a check
  · exact .inr (.inr ⟨hi, hr, rfl⟩)
  · exact .inl rfl -- a command that writes a stream
  · exact .inl rfl -- SEQ_IS_EMPTY

/-- Every command keeps the decoder's invariants (R32). -/
theorem exec_keeps_decoderInv {i : Instr} {s t : State} (hi : s.dec.Inv) (h : exec i s = .next t) : t.dec.Inv := by
  rcases exec_dec_cases h with e | ⟨-, -, e⟩ | ⟨-, -, e⟩ <;> rw [e]
  · exact hi
  · exact Decoder.armed_inv _ _
  · exact (feed_keeps hi).1

/-- Settles O45, by the kinds of step: only a command or a reset touches the decoder. -/
theorem stepKeepsDecoderInvariant : Obligations.StepKeepsDecoderInvariant := by
  intro s t hs h
  refine step_keeps (fun x => x.dec.Inv) (hexec := fun _ _ _ hx e => exec_keeps_decoderInv hx e) (hhost := fun _ _ hx => hx)
    (hrefuse := fun _ hx => hx) (hwrite := fun x offset v hx => ?_) (hobserve := fun _ _ hx => hx) (hmem := fun _ _ _ hx => hx)
    (hreset := fun _ _ => Decoder.reset_inv) hs h
  obtain ⟨-, -, hdec, -⟩ := x.writeReg_keeps offset v
  exact hdec ▸ hx

/-- DEC_INIT, accepted (R141). -/
theorem exec_decInit_accepted {s : State} (h : s.arg1.toNat ≤ 0xFFFF) :
    exec .decInit s = .next (State.returning { s with dec := Decoder.armed s.arg0 s.capacityArg } 0#64) :=
  if_pos (s.capacityFits_iff.mpr h)

/-- Settles O46: both leave a decoder that was just armed. -/
theorem resetAndDecInitMeetDecoderInvariant : Obligations.ResetAndDecInitMeetDecoderInvariant :=
  ⟨Decoder.reset_inv, fun _ h => ⟨_, exec_decInit_accepted h, Decoder.armed_inv _ _⟩⟩

/-! ### Overflow (R31, R152) -/

theorem decResult_errOverflow : decResult errOverflow = -3#64 := by decide

/-- A count takes 16 bits, so none is the overflow code (R162, R78). -/
theorem decResult_count_ne_overflow (c : BitVec 16) : decResult (c.setWidth 32) ≠ -3#64 := by
  intro e
  have hc := c.isLt
  have hn := decResult_count c
  rw [e] at hn
  simp at hn
  omega

/-- The bytes of a DEC leave `OVF` set exactly when the DEC returns -3 (R31, R162). -/
theorem feed_ovf_iff {s : State} (hi : s.dec.Inv) (hr : s.dec.ready) :
    s.feed.work.dec.ovf = true ↔ decResult s.feed.returnValue = -3#64 := by
  rcases feed_ovf hi hr with ⟨w, hf, ho⟩ | ⟨w, hf, ho⟩ <;> rw [hf]
  · exact ⟨fun _ => decResult_errOverflow, fun _ => ho⟩
  · exact ⟨fun h => absurd (ho.symm.trans h) (by decide), fun h => absurd h (decResult_count_ne_overflow _)⟩

/-- With an overflow pending, a DEC returns -3 and changes nothing else (R161). -/
theorem exec_dec_overflowed {s : State} (hv : s.dec.dstValid = true) (hc : s.dec.dstCap ≠ 0#16) (ho : s.dec.ovf = true) :
    exec .dec s = .next (s.returning (-3#64)) := by
  change execDec s = _
  simp [execDec, hv, hc, ho, decResult_errOverflow]

/-- Settles O37: the destination survives a DEC, so the one check a later DEC fails is the overflow. -/
theorem overflowIsStickyUntilDecInit : Obligations.OverflowIsStickyUntilDecInit := by
  intro s t hr hi h
  cases (execDec_ready hr).symm.trans h
  obtain ⟨-, hsame, -⟩ := feed_keeps hi
  have hovf := feed_ovf_iff hi hr
  obtain ⟨hvalid, hcap, -⟩ := hr
  refine ⟨hovf, fun ho u hu => ⟨?_, fun ha => ⟨_, exec_decInit_accepted ha, rfl, rfl⟩⟩⟩
  have hd : u.dec = s.feed.work.dec := hu
  refine exec_dec_overflowed ?_ ?_ ?_ <;> rw [hd]
  · exact hsame.valid.trans hvalid
  · exact hsame.cap ▸ hcap
  · exact ho

/-! ### ERR_CMD (R25) -/

/-- The host's next access writes a command word that the block refuses: an illegal one, or DEC_INIT with a capacity above 16 bits (R103, R105). -/
def State.takesRefusedWord (s : State) : Prop :=
  ∃ w rest, s.host = .regWrite 0x00 32 w :: rest ∧
    ((∃ why, decode w = .illegal why) ∨ (decode w = .command .decInit ∧ 0xFFFF < s.arg1.toNat))

/-- Where the access is not a write of a command word, none is refused. -/
theorem State.not_takesRefusedWord {s : State} (h : ∀ w rest, s.host ≠ .regWrite 0x00 32 w :: rest) : ¬ s.takesRefusedWord :=
  fun ⟨w, rest, hh, _⟩ => h w rest hh

/-- A word that decodes to a command is refused exactly as DEC_INIT with a capacity above 16 bits (R103). -/
theorem State.takesRefusedWord_command {s : State} {w : Word} {rest : List HostAccess} {i : Instr}
    (hh : s.host = .regWrite 0x00 32 w :: rest) (hd : decode w = .command i) :
    s.takesRefusedWord ↔ i = .decInit ∧ 0xFFFF < s.arg1.toNat := by
  simp [State.takesRefusedWord, hh, hd]

@[simp] theorem State.encode_errCmd (mode : BlockMode) (s : State) : (s.encode mode).errCmd = s.errCmd := by
  rcases s.encode_cases mode with ⟨-, e⟩ | ⟨-, e⟩ <;> rw [e] <;> rfl

/-- After a command `ERR_CMD` is set when it was before, or when the command was a refused DEC_INIT (R105). -/
theorem exec_errCmd_iff {i : Instr} {s t : State} (h : exec i s = .next t) :
    t.errCmd = true ↔ s.errCmd = true ∨ (i = .decInit ∧ 0xFFFF < s.arg1.toNat) := by
  rcases exec_cases i s with ⟨mode, hm, e⟩ | ⟨rfl, hc, e⟩ | ⟨rfl, hc, e⟩ | ⟨rfl, _, e, -⟩ | ⟨rfl, -, e⟩ | ⟨_, hm, _, _, e, -⟩ |
    ⟨_, _, rfl, e⟩ <;> cases e.symm.trans h
  · have hne : i ≠ .decInit := by rintro rfl; simp at hm
    simp [hne]
  · simp [Nat.not_lt.mpr hc]
  · simp [hc]
  · simp
  · simp
  · have hne : i ≠ .decInit := by rintro rfl; simp at hm
    simp [hne]
  · simp

/-- After a step `ERR_CMD` is set when the step refused a word, or when it was set before and the step was no reset (R25). -/
theorem step_errCmd_iff {s t : State} (h : step s = .next t) :
    t.errCmd = true ↔ (s.errCmd = true ∧ ∀ rest, s.host ≠ .reset :: rest) ∨ s.takesRefusedWord := by
  rcases step_cases s with ⟨hh, e⟩ | ⟨w, rest, i, hh, hd, e⟩ | ⟨w, rest, why, hh, hd, e⟩ | ⟨offset, v, rest, hh, -, h0, e⟩ |
    ⟨_, _, hh, -, e⟩ | ⟨_, _, _, hh, e⟩ | ⟨_, _, hh, e⟩ | ⟨rest, hh, e⟩ | ⟨_, _, _, -, -, e⟩
  · cases e.symm.trans h -- the host waits
    simp [hh, State.not_takesRefusedWord]
  · rw [exec_errCmd_iff (e.symm.trans h), State.takesRefusedWord_command hh hd]
    simp [hh]
  · cases e.symm.trans h -- an illegal word
    exact iff_of_true rfl (.inr ⟨w, rest, hh, .inl ⟨why, hd⟩⟩)
  · cases e.symm.trans h -- a plain register write
    obtain ⟨-, herr, -⟩ := (s.withHost rest).writeReg_keeps offset v
    simp [hh, h0, herr, State.not_takesRefusedWord]
  -- Reads and writes of buffer memory leave `ERR_CMD` alone, a reset clears it, and an access the port does not admit answers no next state.
  all_goals cases e.symm.trans h
  all_goals simp [hh, State.not_takesRefusedWord, State.reset]

/-- Settles O19, by what a step makes of `ERR_CMD`; a reset refuses no word. -/
theorem errCmdIsSticky : Obligations.ErrCmdIsSticky := by
  refine ⟨rfl, fun s => s.statusWord_bit 2, fun s t h => ?_⟩
  have hiff := step_errCmd_iff h
  refine ⟨fun hs => ?_, fun rest hh => ?_, fun hs => ?_⟩
  · by_cases hreset : ∃ rest, s.host = .reset :: rest
    · exact .inr hreset
    · exact .inl (hiff.mpr (.inl ⟨hs, not_exists.mp hreset⟩))
  · have hnone : ¬ s.takesRefusedWord := State.not_takesRefusedWord (by simp [hh])
    simpa [hh, hnone] using hiff
  · exact hiff.trans (or_iff_right fun ⟨hset, _⟩ => absurd hset (by simp [hs]))

/-! ### Reset and the streams (R37, R34, R35) -/

/-- Settles O14: the registers by computation, the streams by `State.reset_stream`. -/
theorem resetValues : Obligations.ResetValues := by
  refine ⟨rfl, rfl, rfl, rfl, rfl, rfl, rfl, rfl, rfl, rfl, rfl, rfl, rfl, rfl, fun id => ?_⟩
  rw [State.reset_stream]
  exact ⟨rfl, rfl, rfl, rfl⟩

/-- Settles O55: the value returned is the updated stream's own. -/
theorem streamValueIsTheLastId : Obligations.StreamValueIsTheLastId := by
  intro s id raw
  refine ⟨⟨_, rfl, ?_⟩, ⟨_, rfl, ?_, rfl⟩⟩
  · rw [State.returning_stream, State.stream_setStream_same]
    rfl
  · rw [State.returning_stream, State.stream_setStream_same]
    exact (s.stream id).increment_value.symm

/-- A command that writes `S[id]` and returns a value leaves every other stream, and the rest of the machine, alone (R34). -/
theorem setStream_returning_frame (s : State) {id j : Byte} (x : Stream) (v : DWord) (h : j ≠ id) :
    ((s.setStream id x).returning v).stream j = s.stream j ∧
      (s.setStream id x).returning v = { s with streams := (s.setStream id x).streams, result := v } :=
  ⟨s.stream_setStream_other x h, rfl⟩

/-- Settles O54, by the command. -/
theorem streamsAreIndependent : Obligations.StreamsAreIndependent := by
  intro s id raw j h i hi
  simp only [List.mem_cons, List.not_mem_nil, or_false] at hi
  rcases hi with rfl | rfl | rfl | rfl
  · exact ⟨_, rfl, setStream_returning_frame s _ _ h⟩
  · exact ⟨_, rfl, setStream_returning_frame s _ _ h⟩
  · exact ⟨_, rfl, rfl, rfl⟩
  · exact ⟨_, rfl, setStream_returning_frame s _ _ h⟩

end Sys2Proof.Machine
end

section
/-! PROOFS. Buffer memory (20_memory.md): every step keeps its canonical form (R50), the port refuses what it does not admit and nothing else (R56), and
what the host reads after a write of its own (R57, R63). -/

namespace Sys2Proof.Machine

/-! ### The canonical form (R50) -/

/-- ENC keeps the canonical form: its output bytes are writes. -/
theorem State.encode_wf (mode : BlockMode) {s : State} (hm : s.mem.wf = true) : (s.encode mode).mem.wf = true := by
  rcases s.encode_cases mode with ⟨-, e⟩ | ⟨-, e⟩ <;> rw [e]
  · exact hm
  · exact encBlock_wf mode _ _ _ hm

/-- Every command keeps the canonical form: only ENC and the bytes of a DEC touch buffer memory (R104). -/
theorem exec_keeps_memWf {i : Instr} {s t : State} (hm : s.mem.wf = true) (h : exec i s = .next t) : t.mem.wf = true := by
  rcases exec_cases i s with ⟨mode, -, e⟩ | ⟨-, -, e⟩ | ⟨-, -, e⟩ | ⟨-, _, e, -⟩ | ⟨-, -, e⟩ | ⟨_, -, _, _, e, -⟩ | ⟨_, _, -, e⟩ <;>
    cases e.symm.trans h
  · exact State.encode_wf mode hm
  · exact hm -- an accepted DEC_INIT
  · exact hm -- a refused DEC_INIT
  · exact hm -- a DEC that fails a check
  · exact feed_wf hm
  · exact hm -- a command that writes a stream
  · exact hm -- SEQ_IS_EMPTY

/-- Settles O49, by the kinds of step: a command keeps the form, and a host write is a write at an address below 2^32. -/
theorem stepKeepsMemoryCanonical : Obligations.StepKeepsMemoryCanonical := by
  refine ⟨rfl, fun s t hs h => ?_⟩
  refine step_keeps (fun x => x.mem.wf = true) (hexec := fun _ _ _ hx e => exec_keeps_memWf hx e) (hhost := fun _ _ hx => hx)
    (hrefuse := fun _ hx => hx) (hwrite := fun x offset v hx => ?_) (hobserve := fun _ _ hx => hx)
    (hmem := fun _ a v hx => Memory.writeByte_wf a.isLt v hx) (hreset := fun _ hx => hx) hs h
  obtain ⟨-, -, -, -, hmem, -⟩ := x.writeReg_keeps offset v
  exact hmem ▸ hx

/-! ### Accesses the port does not admit (R56) -/

/-- The host's next access is a register access that is not 32 bits wide or not at a multiple of 4 (R56). -/
def State.takesUnadmittedAccess (s : State) : Prop :=
  ∃ (offset width : Nat) (rest : List HostAccess),
    ((∃ v, s.host = .regWrite offset width v :: rest) ∨ s.host = .regRead offset width :: rest) ∧ (width ≠ 32 ∨ offset % 4 ≠ 0)

theorem admitted_eq_false_iff {offset width : Nat} : admitted offset width = false ↔ width ≠ 32 ∨ offset % 4 ≠ 0 := by
  simp [admitted, imp_iff_not_or]

/-- Such an access is refused by name, whatever the register (log 9). -/
theorem step_of_takesUnadmittedAccess {s : State} (h : s.takesUnadmittedAccess) : step s = .refused .registerAccess := by
  obtain ⟨offset, width, rest, hh, hu⟩ := h
  have hn := admitted_eq_false_iff.mpr hu
  rcases hh with ⟨v, hh⟩ | hh <;> simp [step, hh, perform, hn]

/-- Every step completes but one that takes such an access: no command stops (R102, R200), and neither does another access (R57). -/
theorem step_completes_or_takesUnadmittedAccess (s : State) : (∃ t, step s = .next t) ∨ s.takesUnadmittedAccess := by
  rcases step_cases s with ⟨-, e⟩ | ⟨_, rest, i, -, -, e⟩ | ⟨_, _, _, -, -, e⟩ | ⟨_, _, _, -, -, -, e⟩ | ⟨_, _, -, -, e⟩ |
    ⟨_, _, _, -, e⟩ | ⟨_, _, -, e⟩ | ⟨_, -, e⟩ | ⟨offset, width, rest, hh, hu, -⟩
  · exact .inl ⟨_, e⟩ -- the host waits
  · exact .inl (e ▸ exec_completes i (s.withHost rest))
  · exact .inl ⟨_, e⟩ -- an illegal word
  · exact .inl ⟨_, e⟩ -- a plain register write
  · exact .inl ⟨_, e⟩ -- a register read
  · exact .inl ⟨_, e⟩ -- a write of buffer memory
  · exact .inl ⟨_, e⟩ -- a read of buffer memory
  · exact .inl ⟨_, e⟩ -- a reset
  · exact .inr ⟨offset, width, rest, hh, hu⟩

/-- Settles O13: the access decides, in both directions. -/
theorem onlyUnadmittedAccessesStop : Obligations.OnlyUnadmittedAccessesStop := fun s =>
  ⟨fun offset width rest hh hu => step_of_takesUnadmittedAccess ⟨offset, width, rest, hh, hu⟩,
    fun hstop => (step_completes_or_takesUnadmittedAccess s).resolve_left fun ⟨t, e⟩ => hstop t e⟩

/-! ### The host's own bytes (R57, R63) -/

theorem step_memWrite {s : State} {a : Word} {v : Byte} {rest : List HostAccess} (h : s.host = .memWrite a v :: rest) :
    step s = .next { s.withHost rest with mem := s.mem.writeByte a.toNat v } := by
  simp [step, h, perform]

theorem step_memRead {s : State} {a : Word} {rest : List HostAccess} (h : s.host = .memRead a :: rest) :
    step s = .next ((s.withHost rest).observe (.mem a (s.mem.readByte a.toNat))) := by
  simp [step, h, perform]

/-- Settles O16, by what one write does to what is read. -/
theorem hostMemoryReadAfterWrite : Obligations.HostMemoryReadAfterWrite := by
  intro s a a' v rest h
  have hread : (s.mem.writeByte a.toNat v).readByte a'.toNat = if a' = a then v else s.mem.readByte a'.toNat := by
    simp only [Memory.readByte_writeByte, BitVec.toNat_inj]
  refine ⟨_, _, step_memWrite h, step_memRead rfl, ?_, rfl, fun c hc => Memory.readByte_writeByte_other hc s.mem v⟩
  rw [← hread]
  rfl

end Sys2Proof.Machine
end

section
/-! PROOFS. Command words (30_encoding.md R70 to R77): a row of the opcode table admits exactly the words of the commands it builds, so that the decoder
and the encoder are inverse to each other, and the words of commands are those that pass the checks of R75. -/

namespace Sys2Proof

/-! ### The rows of the opcode table (R77) -/

/-- A word is the one assembled from some fields exactly when these are its fields and the reserved ones are 0 (R70). -/
theorem assemble_eq_iff {op : BitVec 4} {mode : BitVec 2} {stream raw : Byte} {w : Word} :
    assemble op mode stream raw = w ↔
      opField w = op ∧ modeField w = mode ∧ rsv0Field w = 0#2 ∧ streamField w = stream ∧ rawField w = raw ∧ rsv1Field w = 0#8 := by
  constructor
  · rintro rfl
    simp
  · rintro ⟨rfl, rfl, h0, rfl, rfl, h1⟩
    exact assemble_of_fields h0 h1

/-- A row that fixes every bit admits one word. -/
theorem admits_fixed (i : Instr) (w : Word) : Row.admits ⟨0xFFFFFFFF#32, encode i, fun _ => i⟩ w = true ↔ encode i = w :=
  (admits_all w (encode i)).trans eq_comm

/-- A row admits exactly the words of the commands it builds: its mask covers every field that the command does not take from the word. -/
theorem admits_iff_encode_build {r : Row} (hr : r ∈ opcodeTable) (w : Word) : r.admits w = true ↔ encode (r.build w) = w := by
  simp only [opcodeTable, List.mem_cons, List.not_mem_nil, or_false] at hr
  rcases hr with rfl | rfl | rfl | rfl | rfl | rfl | rfl | rfl | rfl | rfl
  · exact admits_fixed .encMiddle w
  · exact admits_fixed .encFirst w
  · exact admits_fixed .encLast w
  · exact admits_fixed .encComplete w
  · exact admits_fixed .decInit w
  · exact admits_fixed .dec w
  · exact (admits_streamRaw w 4#4).trans (by simp [encode, assemble_eq_iff])
  · exact (admits_streamRaw w 5#4).trans (by simp [encode, assemble_eq_iff])
  · exact (admits_stream w 6#4).trans (by simp [encode, assemble_eq_iff])
  · exact (admits_stream w 7#4).trans (by simp [encode, assemble_eq_iff])

/-- Every row's mask covers the low byte, `OP`, `MODE` and `RSV0`, so a word has the low byte of the row that admits it. -/
theorem lowByte_of_admits {r : Row} (hr : r ∈ opcodeTable) {w : Word} (h : r.admits w = true) :
    w &&& 0xFF#32 = r.pattern &&& 0xFF#32 := by
  have hmask : ∀ r ∈ opcodeTable, r.mask &&& 0xFF#32 = 0xFF#32 := by decide
  have hp : w &&& r.mask = r.pattern := eq_of_beq h
  rw [← hp, BitVec.and_assoc, hmask r hr]

/-- Settles O5: no two patterns have the same low byte. -/
theorem opcodeRowsDisjoint : Obligations.OpcodeRowsDisjoint := by
  have hne : opcodeTable.Pairwise fun r r' => r.pattern &&& 0xFF#32 ≠ r'.pattern &&& 0xFF#32 := by decide
  exact hne.imp_of_mem fun hr hr' hne _ ⟨h, h'⟩ => hne ((lowByte_of_admits hr h).symm.trans (lowByte_of_admits hr' h'))

/-- At most one row admits a word. -/
theorem row_eq_of_admits {r r' : Row} (hr : r ∈ opcodeTable) (hr' : r' ∈ opcodeTable) {w : Word} (h : r.admits w = true)
    (h' : r'.admits w = true) : r = r' := by
  have : Std.Symm fun r r' : Row => ∀ w, ¬ (r.admits w = true ∧ r'.admits w = true) := ⟨fun _ _ hd w ha => hd w ha.symm⟩
  by_contra hne
  exact opcodeRowsDisjoint.forall hr hr' hne w ⟨h, h'⟩

/-- The decoder's search answers with a row of the table that admits the word. -/
theorem admits_of_find? {r : Row} {w : Word} (h : opcodeTable.find? (fun r => r.admits w) = some r) :
    r ∈ opcodeTable ∧ r.admits w = true :=
  ⟨List.mem_of_find?_eq_some h, List.find?_some (p := (Row.admits · w)) h⟩

/-- The decoder's search finds the row that admits the word, wherever it stands in the table. -/
theorem find?_admits {r : Row} (hr : r ∈ opcodeTable) {w : Word} (h : r.admits w = true) :
    opcodeTable.find? (fun r => r.admits w) = some r := by
  have hsome : (opcodeTable.find? fun r => r.admits w).isSome := List.find?_isSome.mpr ⟨r, hr, h⟩
  obtain ⟨r', hf⟩ := Option.isSome_iff_exists.mp hsome
  obtain ⟨hr', h'⟩ := admits_of_find? hf
  rw [hf, row_eq_of_admits hr hr' h h']

/-! ### Decoder and encoder -/

/-- Every command has its row, which builds it from its own word (R73). -/
theorem exists_row_build_encode (i : Instr) : ∃ r ∈ opcodeTable, r.build (encode i) = i := by
  cases i with
  | encMiddle => exact ⟨opcodeTable[0], List.getElem_mem _, rfl⟩
  | encFirst => exact ⟨opcodeTable[1], List.getElem_mem _, rfl⟩
  | encLast => exact ⟨opcodeTable[2], List.getElem_mem _, rfl⟩
  | encComplete => exact ⟨opcodeTable[3], List.getElem_mem _, rfl⟩
  | decInit => exact ⟨opcodeTable[4], List.getElem_mem _, rfl⟩
  | dec => exact ⟨opcodeTable[5], List.getElem_mem _, rfl⟩
  | seqExtend stream raw => exact ⟨opcodeTable[6], List.getElem_mem _, by simp [opcodeTable, encode]⟩
  | seqIncrement stream raw => exact ⟨opcodeTable[7], List.getElem_mem _, by simp [opcodeTable, encode]⟩
  | seqIsEmpty stream => exact ⟨opcodeTable[8], List.getElem_mem _, by simp [opcodeTable, encode]⟩
  | seqReset stream => exact ⟨opcodeTable[9], List.getElem_mem _, by simp [opcodeTable, encode]⟩

/-- A command's own word decodes to it, unless its stream does not exist (R77, WF6 of R75). -/
theorem decodeWith_encode (n : Nat) (i : Instr) :
    decodeWith n (encode i) = if i.wfWith n then .command i else .illegal .noSuchStream := by
  obtain ⟨r, hr, hb⟩ := exists_row_build_encode i
  have ha : r.admits (encode i) = true := (admits_iff_encode_build hr _).mpr (by rw [hb])
  simp only [decodeWith, find?_admits hr ha, hb]

/-- What the decoder answers with is a command whose own word it was given. -/
theorem encode_of_decodeWith {n : Nat} {w : Word} {i : Instr} (h : decodeWith n w = .command i) : encode i = w := by
  unfold decodeWith at h
  split at h
  · cases h
  next r hf =>
    split at h <;> cases h
    obtain ⟨hr, ha⟩ := admits_of_find? hf
    exact (admits_iff_encode_build hr w).mp ha

/-- The decoder inverts the encoder on the commands whose stream exists, and answers with nothing else. -/
theorem decodeWith_eq_command_iff {n : Nat} {w : Word} {i : Instr} :
    decodeWith n w = .command i ↔ encode i = w ∧ i.wfWith n = true := by
  constructor
  · intro h
    obtain rfl := encode_of_decodeWith h
    simpa [decodeWith_encode] using h
  · rintro ⟨rfl, h⟩
    rw [decodeWith_encode, if_pos h]

/-- Settles O3: the command's row is the one the decoder finds. -/
theorem decodeOfEncode : Obligations.DecodeOfEncode := fun _ h => decodeWith_eq_command_iff.mpr ⟨rfl, h⟩

/-- Settles O4: the row that was found admits only the words of the commands it builds. -/
theorem encodeOfDecode : Obligations.EncodeOfDecode := fun _ _ h => encode_of_decodeWith h

/-! ### The checks (R75) -/

/-- WF1 to WF5 hold of every command's own word. -/
theorem encode_checks (i : Instr) : Laws.WordChecks.Statement i := by
  cases i with
  | encMiddle => exact Laws.WordChecks.encMiddle
  | encFirst => exact Laws.WordChecks.encFirst
  | encLast => exact Laws.WordChecks.encLast
  | encComplete => exact Laws.WordChecks.encComplete
  | decInit => exact Laws.WordChecks.decInit
  | dec => exact Laws.WordChecks.dec
  | seqExtend stream raw => exact Laws.WordChecks.seqExtend stream raw
  | seqIncrement stream raw => exact Laws.WordChecks.seqIncrement stream raw
  | seqIsEmpty stream => exact Laws.WordChecks.seqIsEmpty stream
  | seqReset stream => exact Laws.WordChecks.seqReset stream

/-- WF6 of a command's own word is WF6 of the command. -/
theorem wf6_encode (n : Nat) (i : Instr) : wf6 n (encode i) = i.wfWith n := by
  cases i <;> simp [wf6, encode, isSeqOp, Instr.wfWith]

/-- WF1, opcode by opcode (R73). -/
theorem wf1_iff (w : Word) : wf1 w = true ↔
    opField w = 1#4 ∨ opField w = 2#4 ∨ opField w = 3#4 ∨ opField w = 4#4 ∨ opField w = 5#4 ∨ opField w = 6#4 ∨ opField w = 7#4 := by
  unfold wf1
  generalize opField w = op
  revert op
  decide

/-- Every block mode has its ENC command (R74). -/
theorem exists_encode_enc (mode : BitVec 2) : ∃ i, encode i = assemble 1#4 mode 0#8 0#8 := by
  have hm : mode = 0#2 ∨ mode = 1#2 ∨ mode = 2#2 ∨ mode = 3#2 := by
    revert mode
    decide
  rcases hm with rfl | rfl | rfl | rfl
  · exact ⟨.encMiddle, rfl⟩
  · exact ⟨.encFirst, rfl⟩
  · exact ⟨.encLast, rfl⟩
  · exact ⟨.encComplete, rfl⟩

/-- A word that passes WF1 to WF5 is a command's own word. -/
theorem exists_encode_of_checks {w : Word} (h1 : wf1 w = true) (h2 : wf2 w = true) (h3 : wf3 w = true) (h4 : wf4 w = true)
    (h5 : wf5 w = true) : ∃ i, encode i = w := by
  obtain ⟨hr0, hr1⟩ : rsv0Field w = 0#2 ∧ rsv1Field w = 0#8 := by simpa [wf2] using h2
  have hmode : opField w ≠ 1#4 → modeField w = 0#2 := by simpa [wf3, or_iff_not_imp_left] using h3
  have hstream : isSeqOp (opField w) = false → streamField w = 0#8 := by simpa [wf4, or_iff_not_imp_left] using h4
  have hraw : opField w ≠ 4#4 → opField w ≠ 5#4 → rawField w = 0#8 := by simpa [wf5, or_assoc, or_iff_not_imp_left] using h5
  rcases (wf1_iff w).mp h1 with hop | hop | hop | hop | hop | hop | hop <;> rw [hop] at hmode hstream hraw
  · obtain ⟨i, hi⟩ := exists_encode_enc (modeField w)
    exact ⟨i, hi.trans (assemble_eq_iff.mpr ⟨hop, rfl, hr0, hstream rfl, hraw (by decide) (by decide), hr1⟩)⟩
  · exact ⟨.decInit, assemble_eq_iff.mpr ⟨hop, hmode (by decide), hr0, hstream rfl, hraw (by decide) (by decide), hr1⟩⟩
  · exact ⟨.dec, assemble_eq_iff.mpr ⟨hop, hmode (by decide), hr0, hstream rfl, hraw (by decide) (by decide), hr1⟩⟩
  · exact ⟨.seqExtend (streamField w) (rawField w), assemble_eq_iff.mpr ⟨hop, hmode (by decide), hr0, rfl, rfl, hr1⟩⟩
  · exact ⟨.seqIncrement (streamField w) (rawField w), assemble_eq_iff.mpr ⟨hop, hmode (by decide), hr0, rfl, rfl, hr1⟩⟩
  · exact ⟨.seqIsEmpty (streamField w),
      assemble_eq_iff.mpr ⟨hop, hmode (by decide), hr0, rfl, hraw (by decide) (by decide), hr1⟩⟩
  · exact ⟨.seqReset (streamField w),
      assemble_eq_iff.mpr ⟨hop, hmode (by decide), hr0, rfl, hraw (by decide) (by decide), hr1⟩⟩

/-- Settles O6: the words that pass WF1 to WF5 are the commands' own, and WF6 is the check the decoder makes last. -/
theorem decodeAgreesWithChecks : Obligations.DecodeAgreesWithChecks := by
  intro n w
  constructor
  · rintro ⟨i, h⟩
    obtain ⟨rfl, hwf⟩ := decodeWith_eq_command_iff.mp h
    obtain ⟨h1, h2, h3, h4, h5⟩ := encode_checks i
    exact ⟨h1, h2, h3, h4, h5, (wf6_encode n i).trans hwf⟩
  · rintro ⟨h1, h2, h3, h4, h5, h6⟩
    obtain ⟨i, rfl⟩ := exists_encode_of_checks h1 h2 h3 h4 h5
    exact ⟨i, decodeWith_eq_command_iff.mpr ⟨rfl, (wf6_encode n i).symm.trans h6⟩⟩

/-! ### The worked words (R74, R90) -/

/-- Settles O1: each legal word is the command's own, the others are computed. -/
theorem workedWordsDecode : Obligations.WorkedWordsDecode := by
  refine ⟨rfl, rfl, rfl, rfl, fun _ _ _ => rfl, ?_, ?_, ?_, ?_, ?_, ?_⟩
  · exact decodeOfEncode (.seqExtend 3#8 0xFF#8) rfl
  · exact decodeOfEncode (.seqIncrement 0x10#8 0#8) rfl
  · exact decodeOfEncode (.seqIsEmpty 0#8) rfl
  · exact decodeOfEncode (.seqReset 255#8) rfl
  · exact decodeOfEncode .encComplete rfl
  · decide -- the illegal words, and SEQ_INCREMENT with `RAW` = 0xAB

/-- Settles O2: the words are the commands' own, and so are their `MODE` fields. -/
theorem blockModeWordsDecode : Obligations.BlockModeWordsDecode := by
  refine ⟨?_, ?_, ?_, ?_, rfl, rfl, rfl, rfl, rfl, rfl, rfl, rfl, ?_⟩
  · exact decodeOfEncode .encMiddle rfl
  · exact decodeOfEncode .encFirst rfl
  · exact decodeOfEncode .encLast rfl
  · exact decodeOfEncode .encComplete rfl
  · decide

end Sys2Proof
end

section
/-! PROOFS. What a word written to `CMD` does (30_encoding.md R75, 40_command_interface.md R103, R105). -/

namespace Sys2Proof.Machine

/-- A legal word runs its command (R103). -/
theorem command_of_decode {w : Word} {i : Instr} (h : decode w = .command i) (s : State) : command w s = exec i s := by
  simp only [command, h]

/-- An illegal word is refused (R76, R105). -/
theorem command_of_illegal {w : Word} {why : Illegal} (h : decode w = .illegal why) (s : State) : command w s = .next s.refuse := by
  simp only [command, h]

/-- DEC_INIT with a capacity above 16 bits is refused (WF7 of R75, R103). -/
theorem exec_decInit_refused {s : State} (h : 0xFFFF < s.arg1.toNat) : exec .decInit s = .next s.refuse :=
  if_neg fun hf => absurd (s.capacityFits_iff.mp hf) (Nat.not_le.mpr h)

/-- WF6 always holds with 256 streams (R75). -/
theorem wf6_nStreams (w : Word) : wf6 Config.nStreams w = true := by
  have hlt : (streamField w).toNat < Config.nStreams := (streamField w).isLt
  simp [wf6, hlt]

theorem wf7_eq_false_iff {arg1 w : Word} : wf7 arg1 w = false ↔ opField w = 2#4 ∧ Config.maxCapacity < arg1.toNat := by
  simp [wf7]

/-- Only DEC_INIT has its opcode (R73). -/
theorem eq_decInit_of_opField {i : Instr} (h : opField (encode i) = 2#4) : i = .decInit := by
  cases i <;> simp [encode] at h ⊢

/-- Settles O7: a word that decodes passes WF1 to WF6, so the one check it can fail is DEC_INIT's own, WF7. -/
theorem wellFormedWordsRun : Obligations.WellFormedWordsRun := by
  intro w s
  refine ⟨fun ok => ?_, fun ok => ?_, wf6_nStreams w⟩
  · simp only [Bool.and_eq_true] at ok
    obtain ⟨⟨⟨⟨⟨⟨h1, h2⟩, h3⟩, h4⟩, h5⟩, h6⟩, -⟩ := ok
    obtain ⟨i, hd⟩ := (decodeAgreesWithChecks Config.nStreams w).mpr ⟨h1, h2, h3, h4, h5, h6⟩
    exact ⟨i, hd, command_of_decode hd s, encodeOfDecode w i hd⟩
  · cases hd : decode w with
    | illegal why => exact command_of_illegal hd s
    | command i =>
      obtain ⟨h1, h2, h3, h4, h5, h6⟩ := (decodeAgreesWithChecks Config.nStreams w).mp ⟨i, hd⟩
      obtain ⟨hop, hcap⟩ := wf7_eq_false_iff.mp (by simpa [h1, h2, h3, h4, h5, h6] using ok : wf7 s.arg1 w = false)
      obtain rfl := encodeOfDecode w i hd
      obtain rfl := eq_decInit_of_opField hop
      exact (command_of_decode hd s).trans (exec_decInit_refused hcap)

end Sys2Proof.Machine
end

section
/-! PROOFS. The register map (30_encoding.md R80, R81) and the records a DEC leaves (R86). -/

namespace Sys2Proof.Machine

/-! ### Registers (R80, R81) -/

/-- With 256 streams `SEQ_SEL` always selects one (R81). -/
theorem State.selected_eq (s : State) : s.selected = some (s.stream s.seqSel) :=
  if_pos s.seqSel.isLt

/-- A bit of a field is the register's bit at the field's place. -/
theorem getLsbD_of_field {w : Word} {start len : Nat} {x : BitVec len} (h : w.extractLsb' start len = x) {k : Nat} (hk : k < len) :
    w.getLsbD (start + k) = x.getLsbD k := by
  simp [← h, hk]

/-- Offsets from 0x40 on are reserved and read as 0 (R81). -/
theorem State.readReg_reserved (s : State) {offset : Nat} (h : 0x40 ≤ offset) : s.readReg offset = 0#32 := by
  unfold State.readReg
  split
  case h_17 => rfl
  all_goals omega

theorem flagBit_getLsbD_zero (b : Bool) : (flagBit b).getLsbD 0 = b := by cases b <;> rfl

/-- `SEQ_INFO`, bit by bit (R80). -/
theorem Stream.infoWord_bits (x : Stream) :
    x.infoWord.getLsbD 0 = x.init ∧ (∀ k, 1 ≤ k → k < 8 → x.infoWord.getLsbD k = false) ∧
      (∀ k, k < 8 → x.infoWord.getLsbD (8 + k) = x.low.getLsbD k) ∧
      (∀ k, k < 8 → x.infoWord.getLsbD (16 + k) = x.baseline.getLsbD k) ∧ (∀ k, 24 ≤ k → x.infoWord.getLsbD k = false) := by
  obtain ⟨hinit, hzero, hlow, hbase, htop⟩ := x.infoWord_fields
  refine ⟨?_, fun k h1 h8 => ?_, fun k => getLsbD_of_field hlow, fun k => getLsbD_of_field hbase, fun k h24 => ?_⟩
  · exact (getLsbD_of_field hinit (k := 0) (by decide)).trans (flagBit_getLsbD_zero x.init)
  · obtain ⟨j, rfl⟩ := Nat.exists_eq_add_of_le h1
    exact (getLsbD_of_field hzero (by omega)).trans BitVec.getLsbD_zero
  · obtain ⟨j, rfl⟩ := Nat.exists_eq_add_of_le h24
    by_cases hj : j < 8
    · exact (getLsbD_of_field htop hj).trans BitVec.getLsbD_zero
    · exact BitVec.getLsbD_of_ge _ _ (by omega)

/-- The reserved bits of `STATUS` from 6 on are 0 (R80). -/
theorem State.statusWord_reserved (s : State) {k : Nat} (h : 6 ≤ k) : s.statusWord.getLsbD k = false := by
  rw [s.statusWord_bit]
  simp [show k ≠ 0 ∧ k ≠ 1 ∧ k ≠ 2 ∧ k ≠ 4 ∧ k ≠ 5 by omega]

/-- Settles O11, register by register; the inspection registers show the selected stream. -/
theorem registerMapValues : Obligations.RegisterMapValues := by
  intro s
  have hinfo : s.readReg 0x34 = (s.stream s.seqSel).infoWord := congrArg (inspect _) s.selected_eq
  have hlo : s.readReg 0x38 = (s.stream s.seqSel).high.extractLsb' 0 32 := congrArg (inspect _) s.selected_eq
  have hhi : s.readReg 0x3C = ((s.stream s.seqSel).high.extractLsb' 32 24).setWidth 32 := congrArg (inspect _) s.selected_eq
  have hresLo : s.readReg 0x10 = s.result.extractLsb' 0 32 := rfl
  have hresHi : s.readReg 0x14 = s.result.extractLsb' 32 32 := rfl
  obtain ⟨hinit, hzero, hlow, hbase, htop⟩ := (s.stream s.seqSel).infoWord_bits
  rw [hinfo, hlo, hhi, hresLo, hresHi]
  refine ⟨rfl, rfl, rfl, rfl, fun k hk => ?_, fun k hk => ?_, s.statusWord_bit 0, s.statusWord_bit 1, s.statusWord_bit 2,
    s.statusWord_bit 3, s.statusWord_bit 4, s.statusWord_bit 5, fun k hk => s.statusWord_reserved hk,
    BitVec.toNat_setWidth_of_le (by decide), BitVec.toNat_setWidth_of_le (by decide), BitVec.toNat_setWidth_of_le (by decide), rfl,
    BitVec.toNat_setWidth_of_le (by decide), BitVec.toNat_setWidth_of_le (by decide), hinit, hzero, hlow, hbase, htop,
    fun k hk => ?_, fun k hk => ?_, fun k hk => ?_, fun offset h => s.readReg_reserved h⟩
  · simp [hk] -- RESULT_LO
  · simp [hk] -- RESULT_HI
  · simp [hk] -- SEQ_HIGH_LO
  · simp [hk, Nat.lt_trans hk] -- SEQ_HIGH_HI
  · simp [Nat.not_lt.mpr hk] -- its reserved bits

/-! ### Records (R86) -/

/-- A DEC that did not overflow returns its count (R162). -/
theorem feed_result_eq_count {s : State} (hi : s.dec.Inv) (hr : s.dec.ready) (ho : s.feed.work.dec.ovf = false) :
    (decResult s.feed.returnValue).toNat = s.feed.work.dec.count.toNat := by
  rcases feed_ovf hi hr with ⟨w, hf, hset⟩ | ⟨w, hf, -⟩
  · rw [hf] at ho
    exact absurd (hset.symm.trans ho) (by decide)
  · rw [hf]
    exact decResult_count w.dec.count

/-- Settles O38: whatever bytes were fed, the decoder and its memory hold a parser, and what they show are that parser's messages. -/
theorem decLeavesWholeRecords : Obligations.DecLeavesWholeRecords := by
  intro s t hr hi h
  cases (execDec_ready hr).symm.trans h
  obtain ⟨p, hp, hstart, hbefore⟩ := feed_holds hi
  obtain ⟨hrec, hwalk, -⟩ := hp.shown hstart hbefore
  obtain ⟨hcount, -⟩ := hp.count_toNat hbefore
  exact ⟨hwalk, fun r hmem => hp.small r (hrec ▸ hmem), (congrArg List.length hrec).trans hcount.symm, feed_result_eq_count hi hr⟩

end Sys2Proof.Machine
end

section
/-! PROOFS. What a command writes and reads (40_command_interface.md R104, R106): the units it is not addressed to are left alone and do not matter. -/

namespace Sys2Proof.Machine

/-! ### What a command writes (R104) -/

@[simp] theorem State.encode_streams (mode : BlockMode) (s : State) : (s.encode mode).streams = s.streams := by
  rcases s.encode_cases mode with ⟨-, e⟩ | ⟨-, e⟩ <;> rw [e] <;> rfl

@[simp] theorem State.encode_host (mode : BlockMode) (s : State) : (s.encode mode).host = s.host := by
  rcases s.encode_cases mode with ⟨-, e⟩ | ⟨-, e⟩ <;> rw [e] <;> rfl

@[simp] theorem State.encode_observed (mode : BlockMode) (s : State) : (s.encode mode).observed = s.observed := by
  rcases s.encode_cases mode with ⟨-, e⟩ | ⟨-, e⟩ <;> rw [e] <;> rfl

/-- No command takes an access from the host's program or shows it a value (R102, log 2). -/
theorem exec_keeps_hostSide {i : Instr} {s t : State} (h : exec i s = .next t) : t.host = s.host ∧ t.observed = s.observed := by
  rcases exec_cases i s with ⟨mode, -, e⟩ | ⟨-, -, e⟩ | ⟨-, -, e⟩ | ⟨-, _, e, -⟩ | ⟨-, -, e⟩ | ⟨_, -, _, _, e, -⟩ | ⟨_, _, -, e⟩ <;>
    cases e.symm.trans h
  case inl => exact ⟨s.encode_host mode, s.encode_observed mode⟩
  all_goals exact ⟨rfl, rfl⟩

/-- `ERR_CMD` stays as it was unless the command was a refused DEC_INIT (R105). -/
theorem exec_errCmd_cases {i : Instr} {s t : State} (h : exec i s = .next t) :
    t.errCmd = s.errCmd ∨ (i = .decInit ∧ 0xFFFF < s.arg1.toNat) := by
  by_cases hrefused : i = .decInit ∧ 0xFFFF < s.arg1.toNat
  · exact .inr hrefused
  · exact .inl (Bool.eq_iff_iff.mpr ((exec_errCmd_iff h).trans (or_iff_left hrefused)))

/-- Only ENC and DEC write buffer memory (R104). -/
theorem exec_mem_cases {i : Instr} {s t : State} (h : exec i s = .next t) :
    t.mem = s.mem ∨ i = .dec ∨ i = .encMiddle ∨ i = .encFirst ∨ i = .encLast ∨ i = .encComplete := by
  rcases exec_cases i s with ⟨_, hm, -⟩ | ⟨-, -, e⟩ | ⟨-, -, e⟩ | ⟨hi, -⟩ | ⟨hi, -⟩ | ⟨_, -, _, _, e, -⟩ | ⟨_, _, -, e⟩
  · rcases hm with ⟨hi, -⟩ | ⟨hi, -⟩ | ⟨hi, -⟩ | ⟨hi, -⟩ <;> simp [hi]
  · cases e.symm.trans h -- an accepted DEC_INIT
    exact .inl rfl
  · cases e.symm.trans h -- a refused DEC_INIT
    exact .inl rfl
  · exact .inr (.inl hi) -- a DEC that fails a check
  · exact .inr (.inl hi)
  · cases e.symm.trans h -- a command that writes a stream
    exact .inl rfl
  · cases e.symm.trans h -- SEQ_IS_EMPTY
    exact .inl rfl

/-- Only the SEQ_* commands that name a stream and write it change it (R34, R104). -/
theorem exec_stream_cases {i : Instr} {s t : State} (h : exec i s = .next t) (id : Byte) :
    t.stream id = s.stream id ∨ (∃ raw, i = .seqExtend id raw) ∨ (∃ raw, i = .seqIncrement id raw) ∨ i = .seqReset id := by
  rcases exec_cases i s with ⟨mode, -, e⟩ | ⟨-, -, e⟩ | ⟨-, -, e⟩ | ⟨-, _, e, -⟩ | ⟨-, -, e⟩ | ⟨named, hi, x, v, e, -⟩ | ⟨_, _, -, e⟩ <;>
    cases e.symm.trans h
  · exact .inl (State.stream_congr (s.encode_streams mode) id)
  · exact .inl rfl -- an accepted DEC_INIT
  · exact .inl rfl -- a refused DEC_INIT
  · exact .inl rfl -- a DEC that fails a check
  · exact .inl rfl -- a DEC that takes its bytes
  · by_cases hid : id = named
    · exact .inr (hid ▸ hi)
    · exact .inl (s.stream_setStream_other x hid)
  · exact .inl rfl -- SEQ_IS_EMPTY

/-- Settles O17: one lemma for each part of the state a command may leave alone. -/
theorem commandsWriteOnlyTheirUnit : Obligations.CommandsWriteOnlyTheirUnit := by
  intro i s
  obtain ⟨t, h⟩ := exec_completes i s
  obtain ⟨h0, h1, h2, hsel⟩ := exec_sameHostRegisters h
  obtain ⟨hhost, hobs⟩ := exec_keeps_hostSide h
  have hdec : t.dec = s.dec ∨ i = .decInit ∨ i = .dec :=
    (exec_dec_cases h).imp_right (Or.imp And.left And.left)
  exact ⟨t, h, h0, h1, h2, hsel, hhost, hobs, exec_errCmd_cases h, hdec, exec_mem_cases h, exec_stream_cases h⟩

/-! ### What a command reads (R104) -/

section
variable {s s' : State} (h0 : s.arg0 = s'.arg0) (h1 : s.arg1 = s'.arg1)
include h0 h1

/-- ENC reads its arguments and buffer memory only. -/
theorem State.encode_congr (h2 : s.arg2 = s'.arg2) (hm : s.mem = s'.mem) (mode : BlockMode) :
    (s.encode mode).mem = (s'.encode mode).mem ∧ (s.encode mode).result = (s'.encode mode).result := by
  have hn : s.encNothing = s'.encNothing := by simp only [State.encNothing, h0, h1, h2]
  unfold State.encode
  rw [hn, h0, h1, h2, hm]
  split
  · exact ⟨hm, rfl⟩
  · exact ⟨rfl, rfl⟩

/-- The decoder an accepted DEC_INIT arms, and the 0 it returns, come from its arguments. -/
theorem exec_decInit_congr (ha : s.arg1.toNat ≤ 0xFFFF) :
    ∃ t t', exec .decInit s = .next t ∧ exec .decInit s' = .next t' ∧ t.dec = t'.dec ∧ t.result = t'.result := by
  have hcap : s.capacityArg = s'.capacityArg := congrArg (BitVec.extractLsb' 0 16) h1
  have harmed : Decoder.armed s.arg0 s.capacityArg = Decoder.armed s'.arg0 s'.capacityArg := by rw [h0, hcap]
  exact ⟨_, _, exec_decInit_accepted ha, exec_decInit_accepted (h1 ▸ ha), harmed, rfl⟩

/-- The bytes a DEC feeds, and what they are fed to, come from its arguments, the decoder and buffer memory. -/
theorem State.feed_congr (hm : s.mem = s'.mem) (hd : s.dec = s'.dec) : s.feed = s'.feed := by
  have hn : s.decNoInput = s'.decNoInput := by simp only [State.decNoInput, h0, h1]
  have hw : s.work = s'.work := by simp only [State.work, hm, hd]
  unfold State.feed
  rw [hn, hw, h0, h1]

/-- DEC reads its arguments, the decoder and buffer memory only: its checks are of the decoder, and its bytes by `State.feed_congr`. -/
theorem exec_dec_congr (hm : s.mem = s'.mem) (hd : s.dec = s'.dec) :
    ∃ t t', exec .dec s = .next t ∧ exec .dec s' = .next t' ∧ t.dec = t'.dec ∧ t.mem = t'.mem ∧ t.result = t'.result := by
  change ∃ t t', execDec s = .next t ∧ execDec s' = .next t' ∧ _
  simp only [execDec, hd, State.feed_congr h0 h1 hm hd]
  split_ifs
  · exact ⟨_, _, rfl, rfl, hd, hm, rfl⟩ -- destination unset
  · exact ⟨_, _, rfl, rfl, hd, hm, rfl⟩ -- capacity zero
  · exact ⟨_, _, rfl, rfl, hd, hm, rfl⟩ -- overflow pending
  · exact ⟨_, _, rfl, rfl, rfl, rfl, rfl⟩

end

/-- A SEQ_* command reads its own fields and the stream it names only. -/
theorem exec_seq_congr {s s' : State} {id : Byte} (raw : Byte) (hs : s.stream id = s'.stream id) {i : Instr}
    (hi : i ∈ [Instr.seqExtend id raw, .seqIncrement id raw, .seqIsEmpty id, .seqReset id]) :
    ∃ t t', exec i s = .next t ∧ exec i s' = .next t' ∧ t.stream id = t'.stream id ∧ t.result = t'.result := by
  simp only [List.mem_cons, List.not_mem_nil, or_false] at hi
  rcases hi with rfl | rfl | rfl | rfl <;> refine ⟨_, _, rfl, rfl, ?_⟩ <;> simp [hs]

/-- Settles O18, by the unit: ENC, the decoder's two commands, and the streams. -/
theorem commandsReadOnlyTheirUnit : Obligations.CommandsReadOnlyTheirUnit := by
  intro s s' h0 h1 h2
  refine ⟨fun i hi hm => ?_, exec_decInit_congr h0 h1, exec_dec_congr h0 h1, fun id raw hs i hi => exec_seq_congr raw hs hi⟩
  have henc := State.encode_congr h0 h1 h2 hm
  simp only [List.mem_cons, List.not_mem_nil, or_false] at hi
  rcases hi with rfl | rfl | rfl | rfl
  · exact ⟨_, _, rfl, rfl, henc .middle⟩
  · exact ⟨_, _, rfl, rfl, henc .first⟩
  · exact ⟨_, _, rfl, rfl, henc .last⟩
  · exact ⟨_, _, rfl, rfl, henc .complete⟩

end Sys2Proof.Machine
end

section
/-! PROOFS. One step of the host's register port (40_command_interface.md R100 to R105). -/

namespace Sys2Proof.Machine

/-! ### Accesses the port admits (R56) -/

theorem admitted_of_aligned {offset : Nat} (h : offset % 4 = 0) : admitted offset 32 = true := by
  simp [admitted, h]

/-- A write to `CMD` hands the block a command word (R102). -/
theorem step_commandWrite {s : State} {w : Word} {rest : List HostAccess} (h : s.host = .regWrite 0x00 32 w :: rest) :
    step s = command w (s.withHost rest) := by
  simp [step, h, perform, admitted_of_aligned (Nat.zero_mod 4)]

/-- An admitted write to another register (R100). -/
theorem step_regWrite {s : State} {offset : Nat} {v : Word} {rest : List HostAccess} (h : s.host = .regWrite offset 32 v :: rest)
    (ha : offset % 4 = 0) (h0 : offset ≠ 0) : step s = .next ((s.withHost rest).writeReg offset v) := by
  simp [step, h, perform, admitted_of_aligned ha, h0]

/-- An admitted read (R101). -/
theorem step_regRead {s : State} {offset : Nat} {rest : List HostAccess} (h : s.host = .regRead offset 32 :: rest)
    (ha : offset % 4 = 0) : step s = .next ((s.withHost rest).observe (.reg offset ((s.withHost rest).readReg offset))) := by
  simp [step, h, perform, admitted_of_aligned ha]

/-- No register shows the host's side of the run (R80). -/
@[simp] theorem State.withHost_readReg (s : State) (rest : List HostAccess) (offset : Nat) :
    (s.withHost rest).readReg offset = s.readReg offset := rfl

/-- A register that is neither an argument register nor `SEQ_SEL` ignores what is written to it (R100). -/
theorem State.writeReg_ignored (s : State) {offset : Nat} (v : Word) (h0 : offset ≠ 0x04) (h1 : offset ≠ 0x08) (h2 : offset ≠ 0x0C)
    (hsel : offset ≠ 0x30) : s.writeReg offset v = s := by
  unfold State.writeReg
  split
  case h_5 => rfl
  all_goals contradiction

/-! ### What the accesses do -/

/-- Settles O8: the access hands over the word, and the word decodes. -/
theorem stepRunsTheDecodedCommand : Obligations.StepRunsTheDecodedCommand := fun _ _ _ _ h hd =>
  (step_commandWrite h).trans (command_of_decode hd _)

/-- Settles O9, by the cause of the refusal. -/
theorem refusedWordSetsErrCmdOnly : Obligations.RefusedWordSetsErrCmdOnly := by
  intro s w rest h hrefused
  refine ⟨(step_commandWrite h).trans ?_, nofun⟩
  rcases hrefused with ⟨why, hd⟩ | ⟨hd, hcap⟩
  · exact command_of_illegal hd _
  · exact (command_of_decode hd _).trans (exec_decInit_refused hcap)

/-- Settles O10: the value shown is the block's own, which the access did not touch. -/
theorem registerReadChangesNothing : Obligations.RegisterReadChangesNothing := by
  intro s offset rest h ha
  rw [step_regRead h ha, State.withHost_readReg]
  rfl

/-- Settles O12, by the offset: the four registers that take the value, and the others. -/
theorem registerWrites : Obligations.RegisterWrites := by
  intro s offset v rest h ha hcmd
  have hstep := step_regWrite h ha hcmd
  refine ⟨?arg0, ?arg1, ?arg2, ?seqSel, fun h0 h1 h2 hsel => ?other⟩
  case other =>
    rw [hstep, State.writeReg_ignored _ v h0 h1 h2 hsel]
    rfl
  -- At an offset that is written out, `State.writeReg` computes.
  all_goals
    rintro rfl
    exact hstep

end Sys2Proof.Machine
end

section
/-! PROOFS. ENC (41_framer_encode.md R121 to R129). Every ENC with its operands present is one run of writes of a frame, so what it returns,
writes and leaves alone is said of frames. -/

namespace Sys2Proof.Machine

/-! ### Block modes and their commands (R74, R121) -/

/-- The ENC command of a block mode (R74). -/
def BlockMode.command : BlockMode → Instr
  | .middle => .encMiddle
  | .first => .encFirst
  | .last => .encLast
  | .complete => .encComplete

theorem mem_modeOf {i : Instr} {mode : BlockMode} : (i, mode) ∈ modeOf ↔ i = mode.command := by
  cases mode <;> simp [modeOf, BlockMode.command]

theorem exists_mode_of_mem {i : Instr} (h : i ∈ [Instr.encMiddle, .encFirst, .encLast, .encComplete]) :
    ∃ mode : BlockMode, i = mode.command := by
  simp only [List.mem_cons, List.not_mem_nil, or_false] at h
  rcases h with rfl | rfl | rfl | rfl
  · exact ⟨.middle, rfl⟩
  · exact ⟨.first, rfl⟩
  · exact ⟨.last, rfl⟩
  · exact ⟨.complete, rfl⟩

theorem exec_command (mode : BlockMode) (s : State) : exec mode.command s = .next (s.encode mode) := by
  cases mode <;> rfl

/-- The two bits of `MODE` are the mode's two FLAGs (R74). -/
theorem modeField_command (mode : BlockMode) :
    (modeField (encode mode.command)).toNat % 2 = (leadingFlag mode).toNat ∧
      (modeField (encode mode.command)).toNat / 2 = (trailingFlag mode).toNat := by
  cases mode <;> decide

theorem command_eq_encComplete_iff (mode : BlockMode) :
    mode.command = .encComplete ↔ leadingFlag mode = true ∧ trailingFlag mode = true := by
  cases mode <;> decide

/-! ### The length of a frame (R124) -/

/-- The payload bytes that are sent as two (R85). -/
def isStuffed (b : Byte) : Bool := b == 0x7E#8 || b == 0x7D#8

theorem wireBytes_length (b : Byte) : (wireBytes b).length = 1 + (isStuffed b).toNat := by
  unfold wireBytes isStuffed
  by_cases hf : b = 0x7E#8
  · simp [hf]
  · by_cases he : b = 0x7D#8 <;> simp [hf, he]

theorem stuffed_length (payload : List Byte) :
    (payload.flatMap wireBytes).length = payload.length + payload.countP isStuffed := by
  induction payload with
  | nil => rfl
  | cons b rest ih =>
    have hbit : (if isStuffed b = true then 1 else 0) = (isStuffed b).toNat := by cases isStuffed b <;> rfl
    rw [List.flatMap_cons, List.length_append, wireBytes_length, ih, List.countP_cons, hbit, List.length_cons]
    omega

/-- A frame's FLAGs are those the encoder puts around the block (R121). -/
theorem frame_eq_flagIf (mode : BlockMode) (payload : List Byte) :
    frame mode payload = flagIf (leadingFlag mode) ++ payload.flatMap wireBytes ++ flagIf (trailingFlag mode) := rfl

theorem frame_length (mode : BlockMode) (payload : List Byte) :
    (frame mode payload).length =
      payload.length + payload.countP isStuffed + (leadingFlag mode).toNat + (trailingFlag mode).toNat := by
  rw [frame_eq_flagIf, List.length_append, List.length_append, flagIf_length, flagIf_length, stuffed_length]
  omega

theorem frame_length_bounds (mode : BlockMode) (payload : List Byte) :
    payload.length ≤ (frame mode payload).length ∧ (frame mode payload).length ≤ 2 * payload.length + 2 := by
  have hcount := payload.countP_le_length (p := isStuffed)
  have hlead := Bool.toNat_le (leadingFlag mode)
  have htrail := Bool.toNat_le (trailingFlag mode)
  rw [frame_length]
  omega

/-! ### Regions (R51, R228) -/

theorem apart.mono {b₁ b₂ : Word} {n₁ n₂ k₁ k₂ : Nat} (h : apart b₁ n₁ b₂ n₂) (h₁ : k₁ ≤ n₁) (h₂ : k₂ ≤ n₂) :
    apart b₁ k₁ b₂ k₂ :=
  fun i hi j hj => h i (by omega) j (by omega)

/-- A region that shares no byte with a non-empty one is shorter than the address space. -/
theorem apart.length_lt {b₁ b₂ : Word} {n₁ n₂ : Nat} (h : apart b₁ n₁ b₂ n₂) (h₁ : 0 < n₁) : n₂ < 2 ^ 32 := by
  by_contra hn
  -- Otherwise the second region reaches the first one's first byte.
  refine h 0 h₁ (b₁ - b₂).toNat (by have := (b₁ - b₂).isLt; omega) ?_
  rw [byteAddr, byteAddr, BitVec.ofNat_toNat, BitVec.setWidth_eq, BitVec.add_comm b₂, BitVec.sub_add_cancel, BitVec.add_zero]

/-- A run of writes leaves a region apart from it alone. -/
theorem bytesAt_memWriteAll_apart {src out : Word} {n : Nat} {bytes : List Byte} (m : Memory) (h : apart src n out bytes.length) :
    bytesAt (memWriteAll m out 0 bytes) src 0 n = bytesAt m src 0 n :=
  bytesAt_congr fun j hj => readByte_memWriteAll_outside _ _ fun q hq => h _ (by omega) _ (by omega)

theorem keepsOutside_memWriteAll (m : Memory) (out : Word) (bytes : List Byte) :
    keepsOutside m (memWriteAll m out 0 bytes) out bytes.length :=
  fun _ ha => readByte_memWriteAll_outside _ _ fun j hj e => ha ⟨0 + j, by omega, e⟩

/-- Writes at an offset from an address reached by an offset (R51). -/
theorem memWriteAll_shift (bytes : List Byte) (m : Memory) (base : Word) (k i : Nat) :
    memWriteAll m (base + BitVec.ofNat 32 k) i bytes = memWriteAll m base (k + i) bytes := by
  induction bytes generalizing m i with
  | nil => rfl
  | cons b rest ih => rw [memWriteAll, memWriteAll, ih, memWrite, memWrite, byteAddr_add, Nat.add_assoc]

/-! ### ENC as a run of writes (R122, R125) -/

theorem State.encode_absent {s : State} (mode : BlockMode) (h : s.arg1 = 0#32 ∨ s.arg0 = 0#32 ∨ s.arg2 = 0#32) :
    s.encode mode = s.returning 0#64 :=
  if_pos (s.encNothing_iff.mpr h)

/-- The operands of an ENC that encodes something: a non-empty source and two present addresses (R125). -/
def State.encPresent (s : State) : Prop := ¬ (s.arg1 = 0#32 ∨ s.arg0 = 0#32 ∨ s.arg2 = 0#32)

theorem State.encPresent_of_ne {s : State} (h0 : s.arg0 ≠ 0#32) (h1 : s.arg1 ≠ 0#32) (h2 : s.arg2 ≠ 0#32) : s.encPresent := by
  simp [State.encPresent, h0, h1, h2]

theorem State.encPresent.arg1_pos {s : State} (h : s.encPresent) : 0 < s.arg1.toNat :=
  Nat.pos_of_ne_zero fun e => h (.inl (BitVec.eq_of_toNat_eq e))

theorem State.encode_present {s : State} (mode : BlockMode) (h : s.encPresent) :
    s.encode mode = s.encoded (encBlock mode s.arg0 s.arg1.toNat s.arg2 s.mem) :=
  if_neg (mt s.encNothing_iff.mp h)

/-- The machine after an ENC that wrote some bytes to its output and returned their number. -/
def State.wrote (s : State) (bytes : List Byte) : State := s.encoded (memWriteAll s.mem s.arg2 0 bytes, bytes.length)

@[simp] theorem State.wrote_mem (s : State) (bytes : List Byte) : (s.wrote bytes).mem = memWriteAll s.mem s.arg2 0 bytes := rfl
@[simp] theorem State.wrote_result (s : State) (bytes : List Byte) : (s.wrote bytes).result = BitVec.ofNat 64 bytes.length := rfl

/-- No frame of a source that `ARG1` can name is too long for `RESULT` (R78). -/
theorem State.wrote_frame_result (s : State) (mode : BlockMode) {payload : List Byte} (h : payload.length < 2 ^ 32) :
    (s.wrote (frame mode payload)).result.toNat = (frame mode payload).length := by
  have := frame_length_bounds mode payload
  rw [State.wrote_result, BitVec.toNat_ofNat]
  omega

/-- Whatever the regions, an ENC with its operands present writes the frame of as many bytes as its source has (R122). -/
theorem State.encode_writes {s : State} (mode : BlockMode) (h : s.encPresent) :
    ∃ payload : List Byte, payload.length = s.arg1.toNat ∧ s.encode mode = s.wrote (frame mode payload) ∧
      (s.encode mode).result.toNat = (frame mode payload).length := by
  obtain ⟨payload, hlen, he⟩ := encBlock_writes mode s.arg0 s.arg1.toNat s.arg2 s.mem
  have hs : s.encode mode = s.wrote (frame mode payload) := by rw [State.encode_present mode h, he, State.wrote]
  exact ⟨payload, hlen, hs, hs ▸ s.wrote_frame_result mode (hlen ▸ s.arg1.isLt)⟩

/-- Where source and output share no byte, the frame is the source's (R123). -/
theorem State.encode_apart {s : State} (mode : BlockMode) (h : s.encPresent)
    (ha : apart s.arg0 s.arg1.toNat s.arg2 (frame mode s.sourceBytes).length) :
    s.encode mode = s.wrote (frame mode s.sourceBytes) := by
  rw [State.encode_present mode h, encBlock_apart mode _ _ _ _ ha, State.wrote]

theorem State.sourceBytes_length (s : State) : s.sourceBytes.length = s.arg1.toNat := bytesAt_length ..

/-- The frame fits where twice the source and two FLAGs do (R124). -/
theorem State.apart_frame {s : State} (mode : BlockMode) (ha : apart s.arg0 s.arg1.toNat s.arg2 (2 * s.arg1.toNat + 2)) :
    apart s.arg0 s.arg1.toNat s.arg2 (frame mode s.sourceBytes).length := by
  have := frame_length_bounds mode s.sourceBytes
  rw [s.sourceBytes_length] at this
  exact ha.mono le_rfl this.2

/-! ### What an ENC returns and writes -/

/-- Settles O21: an absent operand makes no frame, and the frame of a non-empty source is not empty. -/
theorem encWithoutOperandsReturnsZero : Obligations.EncWithoutOperandsReturnsZero := by
  intro s i hi
  obtain ⟨mode, rfl⟩ := exists_mode_of_mem hi
  rw [exec_command]
  refine ⟨fun h => congrArg _ (State.encode_absent mode h), fun (h : s.encPresent) => ⟨_, rfl, ?_⟩⟩
  obtain ⟨payload, hlen, -, hres⟩ := State.encode_writes mode h
  have hframe := frame_length_bounds mode payload
  have hpos := h.arg1_pos
  omega

/-- Settles O22: whatever was read, a frame was written, and a run of writes leaves the other bytes alone. -/
theorem encCompletesAndWritesOnlyItsOutput : Obligations.EncCompletesAndWritesOnlyItsOutput := by
  intro s i hi h0 h1 h2
  obtain ⟨mode, rfl⟩ := exists_mode_of_mem hi
  obtain ⟨payload, hlen, he, hres⟩ := State.encode_writes mode (State.encPresent_of_ne h0 h1 h2)
  have hframe := frame_length_bounds mode payload
  refine ⟨_, exec_command mode s, by rw [he]; rfl, by omega, by omega, fun a ha => ?_⟩
  rw [hres] at ha
  rw [he, State.wrote_mem]
  exact keepsOutside_memWriteAll _ _ _ a fun ⟨j, hj, e⟩ => ha j hj e

/-- Settles O23: the frame written is the source's, and it is too short to wrap onto itself. -/
theorem encWritesTheStuffedFrame : Obligations.EncWritesTheStuffedFrame := by
  intro s i mode hi h0 h1 h2 ha
  cases mem_modeOf.mp hi
  have hp := State.encPresent_of_ne h0 h1 h2
  have hfit := ha.length_lt hp.arg1_pos
  exact ⟨_, (exec_command mode s).trans (congrArg _ (State.encode_apart mode hp ha)),
    bytesAt_memWriteAll _ _ _ _ (by omega), keepsOutside_memWriteAll _ _ _⟩

/-- Settles O24: the length of the source's frame. -/
theorem encByteCount : Obligations.EncByteCount := by
  intro s i mode hi h0 h1 h2 ha
  cases mem_modeOf.mp hi
  obtain ⟨hm0, hm1⟩ := modeField_command mode
  have hn := s.sourceBytes_length
  have hres := s.wrote_frame_result mode (hn ▸ s.arg1.isLt)
  have he := State.encode_apart mode (State.encPresent_of_ne h0 h1 h2) (State.apart_frame mode ha)
  have hlen : (s.encode mode).result.toNat = s.arg1.toNat + s.sourceBytes.countP isStuffed +
      (leadingFlag mode).toNat + (trailingFlag mode).toNat := by rw [he, hres, frame_length, hn]
  refine ⟨_, exec_command mode s, by rw [hm0, hm1]; exact hlen, ?_⟩
  have hcount := s.sourceBytes.countP_le_length (p := isStuffed)
  have hlead := Bool.toNat_le (leadingFlag mode)
  have htrail := Bool.toNat_le (trailingFlag mode)
  have hall : s.sourceBytes.countP isStuffed = s.arg1.toNat ↔ ∀ b ∈ s.sourceBytes, b = 0x7E#8 ∨ b = 0x7D#8 := by
    rw [← hn, List.countP_eq_length]
    simp [isStuffed]
  rw [← hall, command_eq_encComplete_iff, ← Bool.toNat_eq_one, ← Bool.toNat_eq_one]
  omega

/-! ### FLAG and ESCAPE in the output (R128) -/

/-- Every ESCAPE of a list is followed in it by a stuffed FLAG or ESCAPE. -/
def EscapesPaired (bytes : List Byte) : Prop :=
  ∀ j, bytes[j]? = some 0x7D#8 → bytes[j + 1]? = some 0x5E#8 ∨ bytes[j + 1]? = some 0x5D#8

/-- A paired ESCAPE is not the last byte. -/
theorem EscapesPaired.next_lt {bytes : List Byte} (h : EscapesPaired bytes) {j : Nat} (hj : bytes[j]? = some 0x7D#8) :
    j + 1 < bytes.length := by
  rcases h j hj with hnext | hnext <;> exact (List.getElem?_eq_some_iff.mp hnext).1

theorem EscapesPaired.append {a b : List Byte} (ha : EscapesPaired a) (hb : EscapesPaired b) : EscapesPaired (a ++ b) := by
  intro j hj
  by_cases hlt : j < a.length
  · rw [List.getElem?_append_left hlt] at hj
    rw [List.getElem?_append_left (ha.next_lt hj)]
    exact ha j hj
  · rw [List.getElem?_append_right (by omega)] at hj
    rw [List.getElem?_append_right (by omega), Nat.sub_add_comm (by omega)]
    exact hb _ hj

theorem escapesPaired_flatMap {f : Byte → List Byte} (hf : ∀ b, EscapesPaired (f b)) (payload : List Byte) :
    EscapesPaired (payload.flatMap f) := by
  induction payload with
  | nil => exact nofun
  | cons b rest ih => exact (hf b).append ih

theorem wireBytes_escapesPaired (b : Byte) : EscapesPaired (wireBytes b) := by
  unfold wireBytes
  split
  · rintro (_ | _ | j) hj <;> simp_all -- `7D 5E`
  · split
    · rintro (_ | _ | j) hj <;> simp_all -- `7D 5D`
    · rintro (_ | j) hj <;> simp_all -- the byte itself, which is no ESCAPE

theorem flagIf_eq_some {wanted : Bool} {j : Nat} {b : Byte} (h : (flagIf wanted)[j]? = some b) :
    wanted = true ∧ j = 0 ∧ b = 0x7E#8 := by
  cases wanted with
  | false => exact absurd h nofun
  | true =>
    cases j with
    | zero => exact ⟨rfl, rfl, (Option.some.inj h).symm⟩
    | succ j => exact absurd h nofun

theorem flagIf_escapesPaired (wanted : Bool) : EscapesPaired (flagIf wanted) := by
  intro j hj
  obtain ⟨-, -, hb⟩ := flagIf_eq_some hj
  exact absurd hb (by decide)

theorem frame_escapesPaired (mode : BlockMode) (payload : List Byte) : EscapesPaired (frame mode payload) :=
  ((flagIf_escapesPaired _).append (escapesPaired_flatMap wireBytes_escapesPaired payload)).append (flagIf_escapesPaired _)

/-- No stuffed byte is a FLAG. -/
theorem flag_not_mem_stuffed (payload : List Byte) : 0x7E#8 ∉ payload.flatMap wireBytes := by
  rw [List.mem_flatMap]
  rintro ⟨b, -, hb⟩
  unfold wireBytes at hb
  split_ifs at hb <;> simp_all

/-- A FLAG in a frame is the one its mode puts before or after the block (R121). -/
theorem frame_flag_position {mode : BlockMode} {payload : List Byte} {j : Nat} (h : (frame mode payload)[j]? = some 0x7E#8) :
    (j = 0 ∧ leadingFlag mode = true) ∨ (j + 1 = (frame mode payload).length ∧ trailingFlag mode = true) := by
  rw [frame_eq_flagIf] at h ⊢
  rw [List.getElem?_append] at h
  split_ifs at h with hleft
  · rw [List.getElem?_append] at h
    split_ifs at h with hlead
    · obtain ⟨hwanted, hzero, -⟩ := flagIf_eq_some h
      exact .inl ⟨hzero, hwanted⟩
    · exact absurd (List.mem_of_getElem? h) (flag_not_mem_stuffed payload)
  · obtain ⟨hwanted, hzero, -⟩ := flagIf_eq_some h
    refine .inr ⟨?_, hwanted⟩
    rw [List.length_append, hwanted, flagIf_length, Bool.toNat_true]
    omega

/-- A written list that does not wrap onto itself is read back byte for byte. -/
theorem getElem?_eq_memRead {bytes : List Byte} (m : Memory) (out : Word) (hlen : bytes.length ≤ 2 ^ 32) {j : Nat}
    (hj : j < bytes.length) : bytes[j]? = some (memRead (memWriteAll m out 0 bytes) out j) := by
  have h := memRead_memWriteAll out bytes (m := m) (i := 0) hj (by omega)
  rw [Nat.zero_add] at h
  rw [h, List.getElem?_eq_getElem hj]

/-- Settles O25: the output is a frame, of some payload, and these are facts about frames. -/
theorem encOutputIsEscaped : Obligations.EncOutputIsEscaped := by
  intro s t i mode hi h0 h1 h2 h hk j hj
  cases mem_modeOf.mp hi
  cases (exec_command mode s).symm.trans h
  obtain ⟨payload, -, he, hres⟩ := State.encode_writes mode (State.encPresent_of_ne h0 h1 h2)
  rw [hres] at hk hj ⊢
  rw [he, State.wrote_mem]
  have hread {q : Nat} (hq : q < (frame mode payload).length) := getElem?_eq_memRead s.mem s.arg2 hk hq
  refine ⟨fun hflag => frame_flag_position ((hread hj).trans (congrArg some hflag)), fun hesc => ?_⟩
  have hpaired := frame_escapesPaired mode payload
  have hj7D := (hread hj).trans (congrArg some hesc)
  have hlt := hpaired.next_lt hj7D
  have hnext := hpaired j hj7D
  rw [hread hlt, Option.some_inj, Option.some_inj] at hnext
  exact ⟨hlt, hnext⟩

/-! ### A split encoding (R127) -/

/-- The bytes ENC commands of pieces (block mode, source address, length) write one after another, each piece read from one memory. -/
def splitBytes (m : Memory) (pieces : List (BlockMode × Word × Nat)) : List Byte :=
  pieces.flatMap fun p => frame p.1 (bytesAt m p.2.1 0 p.2.2)

theorem splitBytes_cons (m : Memory) (mode : BlockMode) (src : Word) (n : Nat) (rest : List (BlockMode × Word × Nat)) :
    splitBytes m ((mode, src, n) :: rest) = frame mode (bytesAt m src 0 n) ++ splitBytes m rest := List.flatMap_cons

theorem splitBytes_pos (m : Memory) {pieces : List (BlockMode × Word × Nat)} (hne : pieces ≠ []) (h : ∀ p ∈ pieces, 1 ≤ p.2.2) :
    1 ≤ (splitBytes m pieces).length := by
  obtain ⟨⟨mode, src, n⟩, rest, rfl⟩ := List.exists_cons_of_ne_nil hne
  have hn : 1 ≤ n := h _ List.mem_cons_self
  have hframe := (frame_length_bounds mode (bytesAt m src 0 n)).1
  rw [bytesAt_length] at hframe
  rw [splitBytes_cons, List.length_append]
  omega

/-- One piece: its ENC is one run of writes of its frame (R127). -/
theorem exec_piece (s : State) (mode : BlockMode) {src out : Word} {n : Nat} (hsrc : src ≠ 0#32) (hout : out ≠ 0#32) (h1 : 1 ≤ n)
    (h2 : n < 2 ^ 32) (ha : apart src n out (frame mode (bytesAt s.mem src 0 n)).length) :
    ∃ t, exec mode.command { s with arg0 := src, arg1 := BitVec.ofNat 32 n, arg2 := out } = .next t ∧
      t.mem = memWriteAll s.mem out 0 (frame mode (bytesAt s.mem src 0 n)) ∧
      t.result.toNat = (frame mode (bytesAt s.mem src 0 n)).length := by
  obtain ⟨len, rfl⟩ : ∃ len : Word, n = len.toNat := ⟨BitVec.ofNat 32 n, (BitVec.toNat_ofNat n 32 ▸ Nat.mod_eq_of_lt h2).symm⟩
  rw [BitVec.ofNat_toNat, BitVec.setWidth_eq]
  have hp : State.encPresent { s with arg0 := src, arg1 := len, arg2 := out } :=
    State.encPresent_of_ne hsrc (by rintro rfl; exact absurd h1 (by decide)) hout
  refine ⟨_, (exec_command mode _).trans (congrArg _ (State.encode_apart mode hp ha)), rfl, ?_⟩
  exact State.wrote_frame_result _ mode ((bytesAt_length ..).trans_lt h2)

theorem encPieces_cons {i : Instr} {src out : Word} {n : Nat} {s t : State} (rest : List (Instr × Word × Nat))
    (h : exec i { s with arg0 := src, arg1 := BitVec.ofNat 32 n, arg2 := out } = .next t) :
    encPieces out ((i, src, n) :: rest) s =
      (encPieces (out + BitVec.ofNat 32 t.result.toNat) rest t).map fun r => (t.result.toNat + r.1, r.2) := by
  simp only [encPieces, h]

/-- A piece, `n` bytes at `src`, whose ENC encodes it and that shares no byte with the `len` bytes of the whole output (R127). -/
structure Encodable (out : Word) (len : Nat) (src : Word) (n : Nat) : Prop where
  present : src ≠ 0#32
  nonempty : 1 ≤ n
  nameable : n < 2 ^ 32
  separate : apart src n out len

/-- What is apart from an output is apart from a part of it further in. -/
theorem Encodable.further {out src : Word} {k len n : Nat} (h : Encodable out (k + len) src n) :
    Encodable (out + BitVec.ofNat 32 k) len src n :=
  ⟨h.present, h.nonempty, h.nameable, fun i hi j hj => byteAddr_add out k j ▸ h.separate i hi (k + j) (by omega)⟩

/-- Where every source is apart from the output, pieces encoded end to end are one run of writes (R127). -/
theorem encPieces_writes (pieces : List (BlockMode × Word × Nat)) {out : Word} {s : State} (hout : pieces ≠ [] → out ≠ 0#32)
    (hpieces : ∀ p ∈ pieces, Encodable out (splitBytes s.mem pieces).length p.2.1 p.2.2)
    (htop : out.toNat + (splitBytes s.mem pieces).length ≤ 2 ^ 32) :
    ∃ t, encPieces out (pieces.map fun p => (p.1.command, p.2)) s = some ((splitBytes s.mem pieces).length, t) ∧
      t.mem = memWriteAll s.mem out 0 (splitBytes s.mem pieces) := by
  induction pieces generalizing out s with
  | nil => exact ⟨s, rfl, rfl⟩
  | cons p rest ih =>
    obtain ⟨mode, src, n⟩ := p
    have hout' := hout (List.cons_ne_nil _ _)
    simp only [splitBytes_cons, List.length_append, List.forall_mem_cons] at hpieces htop ⊢
    obtain ⟨hfirst, hrest⟩ := hpieces
    obtain ⟨t, hexec, hmem, hres⟩ :=
      exec_piece s mode hfirst.present hout' hfirst.nonempty hfirst.nameable (hfirst.separate.mono le_rfl (by omega))
    -- The rest reads the same sources, and writes from where the first piece ended.
    have hsame : splitBytes t.mem rest = splitBytes s.mem rest :=
      List.flatMap_congr fun q hq => by
        rw [hmem, bytesAt_memWriteAll_apart _ ((hrest q hq).separate.mono le_rfl (by omega))]
    rw [← hsame, ← hres] at htop hrest
    have hnext : (out + BitVec.ofNat 32 t.result.toNat).toNat = (out.toNat + t.result.toNat) % 2 ^ 32 := byteAddr_eq out _
    have hne : rest ≠ [] → out + BitVec.ofNat 32 t.result.toNat ≠ 0#32 := fun hr e => by
      have hlen := splitBytes_pos t.mem hr fun q hq => (hrest q hq).nonempty
      rw [e] at hnext
      exact hout' (BitVec.eq_of_toNat_eq (by simp only [BitVec.toNat_ofNat] at hnext ⊢; omega))
    obtain ⟨u, hrun, humem⟩ := ih hne (fun q hq => (hrest q hq).further) (by omega)
    refine ⟨u, ?_, ?_⟩
    · rw [List.map_cons, encPieces_cons _ hexec, hrun, hsame, hres]
      rfl
    · rw [humem, hsame, hmem, hres, memWriteAll_shift, memWriteAll_append, Nat.add_comm]

/-- A source's pieces with the block modes a split encoding gives them: FIRST, MIDDLE, …, MIDDLE, LAST (R127). -/
def splitModes (first : Word × Nat) (mids : List (Word × Nat)) (last : Word × Nat) : List (BlockMode × Word × Nat) :=
  (.first, first) :: (mids.map (fun p => (.middle, p)) ++ [(.last, last)])

theorem splitModes_pieces (first : Word × Nat) (mids : List (Word × Nat)) (last : Word × Nat) :
    (splitModes first mids last).map Prod.snd = first :: (mids ++ [last]) := by
  simp [splitModes]

/-- The pieces' frames, end to end, are the COMPLETE frame of what the pieces hold together. -/
theorem splitBytes_splitModes (m : Memory) (first : Word × Nat) (mids : List (Word × Nat)) (last : Word × Nat) :
    splitBytes m (splitModes first mids last) =
      frame .complete ((first :: (mids ++ [last])).flatMap fun p => bytesAt m p.1 0 p.2) := by
  simp [splitBytes, splitModes, frame, leadingFlag, trailingFlag, List.flatMap_map, List.flatMap_assoc]

/-- Settles O26: the pieces' frames make one run of writes, and end to end they are the COMPLETE frame. -/
theorem splitEncodingIsCompleteEncoding : Obligations.SplitEncodingIsCompleteEncoding := by
  intro s out src₁ srcₘ n₁ nₘ mids pieces whole hout hpieces htop
  have hwhole : splitBytes s.mem (splitModes (src₁, n₁) mids (srcₘ, nₘ)) = whole := splitBytes_splitModes ..
  have hmem : ∀ p ∈ splitModes (src₁, n₁) mids (srcₘ, nₘ), p.2 ∈ pieces := fun p hp => by
    have h := List.mem_map_of_mem (f := Prod.snd) hp
    rwa [splitModes_pieces] at h
  have hencodable : ∀ p ∈ splitModes (src₁, n₁) mids (srcₘ, nₘ), Encodable out whole.length p.2.1 p.2.2 := fun p hp => by
    obtain ⟨hsrc, hn1, hn2, ha⟩ := hpieces p.2 (hmem p hp)
    exact ⟨hsrc, hn1, hn2, ha⟩
  obtain ⟨t, hrun, ht⟩ := encPieces_writes (splitModes (src₁, n₁) mids (srcₘ, nₘ)) (s := s) (fun _ => hout)
    (fun p hp => hwhole.symm ▸ hencodable p hp) (hwhole.symm ▸ htop)
  rw [hwhole] at hrun ht
  refine ⟨t, ?_, ?_, ?_⟩
  · simpa [splitModes, BlockMode.command, Function.comp_def] using hrun
  · rw [ht]
    exact bytesAt_memWriteAll _ _ _ _ (by omega)
  · rw [ht]
    exact keepsOutside_memWriteAll _ _ _

end Sys2Proof.Machine
end

section
/-! PROOFS. A COMPLETE frame, decoded, is its payload again (41_framer_encode.md R129, 42_framer_decode.md R178). -/

namespace Sys2Proof.Machine

/-- With no message in progress, HUNTING and FRAME_STARTED hold no payload (R32 (b)). -/
theorem partialPayload_of_idle {w : Work} (hi : w.dec.Inv) (hd : w.dec.dstate = .hunting ∨ w.dec.dstate = .frameStarted) :
    w.partialPayload = [] := by
  have hp := Decoder.pending_toNat hi
  obtain ⟨-, hidle, -⟩ := hi
  have hcursor := hidle hd
  rw [← List.length_eq_zero_iff, Work.partialPayload, bytesAt_length, Config.lenBytes, hp]
  omega

theorem recordsBytes_singleton (payload : List Byte) : recordsBytes [payload] = recordBytes payload := by
  simp [recordsBytes]

/-- A DEC of the COMPLETE frame of a non-empty payload that fits, from HUNTING or FRAME_STARTED, returns 1 and leaves that payload as its one
record (R178). -/
theorem dec_of_frame {s : State} {payload : List Byte} (hr : s.dec.ready) (hi : s.dec.Inv)
    (hd : s.dec.dstate = .hunting ∨ s.dec.dstate = .frameStarted) (h0 : s.arg0 ≠ 0#32) (h1 : s.arg1 ≠ 0#32)
    (ha : apart s.arg0 s.arg1.toNat s.dec.dstBase s.dec.dstCap.toNat) (hsrc : s.sourceBytes = frame .complete payload)
    (hne : payload ≠ []) (hfit : payload.length + 2 ≤ s.dec.dstCap.toNat) :
    ∃ t, exec .dec s = .next t ∧ t.result = 1#64 ∧ t.work.records = [payload] ∧ t.dec.dstate = .frameStarted ∧
      bytesAt t.mem s.dec.dstBase 0 (payload.length + 2) = recordBytes payload ∧ t.dec.anchor.toNat = payload.length + 2 ∧
      t.dec.ovf = false := by
  have hpart : s.parse.part = [] := partialPayload_of_idle (w := s.work) hi hd
  obtain ⟨hstep, hroom⟩ := Parse.frame_step payload (p := s.parse) s.dec.dstCap.toNat hd hpart hne
  have hused : s.parse.used = 2 := by rw [Parse.used, hpart]; rfl
  obtain ⟨t, he, hh, hdst, hovf, hres, -⟩ := dec_of_room hr hi h0 h1 ha (by rw [hsrc, hroom, hused]; omega)
  rw [hsrc, hstep] at hh hres
  obtain ⟨hrec, -, -⟩ := hh.shown rfl rfl
  have hlen : (recordsBytes [payload]).length = payload.length + 2 := by rw [recordsBytes_singleton, recordBytes_length]
  refine ⟨t, he, BitVec.eq_of_toNat_eq hres, hrec, hh.st, ?_, hh.anchor.trans (hlen ▸ Nat.zero_add _), hovf⟩
  have hret : bytesAt t.mem t.dec.dstBase 0 (recordsBytes [payload]).length = recordsBytes [payload] := hh.retired
  rwa [hlen, recordsBytes_singleton, hdst.base] at hret

theorem Decoder.armed_ready {base : Word} {cap : BitVec 16} (hbase : base ≠ 0#32) (hcap : cap ≠ 0#16) :
    (Decoder.armed base cap).ready := by
  simp [Decoder.ready, Decoder.armed, absent, hbase, hcap]

/-- A capacity that passes WF7 is taken whole (R103). -/
theorem State.capacityArg_toNat {s : State} (h : s.arg1.toNat ≤ 0xFFFF) : s.capacityArg.toNat = s.arg1.toNat := by
  rw [State.capacityArg, BitVec.extractLsb'_toNat, Nat.shiftRight_zero]
  omega

/-- DEC_INIT with a destination and room for a payload, then a DEC of that payload's frame from elsewhere in memory: one record, the payload (R178,
R223). -/
theorem decInit_dec_of_frame {s : State} {src : Word} {payload : List Byte} (hbase : s.arg0 ≠ 0#32) (hmax : s.arg1.toNat ≤ 0xFFFF)
    (hfit : payload.length + 2 ≤ s.arg1.toNat) (hsrc : src ≠ 0#32) (hne : payload ≠ [])
    (hbytes : bytesAt s.mem src 0 (frame .complete payload).length = frame .complete payload)
    (ha : apart src (frame .complete payload).length s.arg0 s.arg1.toNat) :
    ∃ t u, exec .decInit s = .next t ∧
      exec .dec { t with arg0 := src, arg1 := BitVec.ofNat 32 (frame .complete payload).length } = .next u ∧
      u.result = 1#64 ∧ u.work.records = [payload] ∧ bytesAt u.mem s.arg0 0 (payload.length + 2) = recordBytes payload := by
  have hcap := State.capacityArg_toNat hmax
  have hframe := frame_length_bounds .complete payload
  have hpos := List.length_pos_iff.mpr hne
  have hlen : (BitVec.ofNat 32 (frame .complete payload).length).toNat = (frame .complete payload).length := by
    rw [BitVec.toNat_ofNat]
    omega
  have hready : (Decoder.armed s.arg0 s.capacityArg).ready := Decoder.armed_ready hbase fun e => by
    rw [e, BitVec.toNat_ofNat] at hcap
    omega
  have hinput : BitVec.ofNat 32 (frame .complete payload).length ≠ 0#32 := fun e => by
    rw [e, BitVec.toNat_ofNat] at hlen
    omega
  obtain ⟨u, hexec, hres, hrec, -, hrecord, -⟩ := dec_of_frame (payload := payload)
    (s := { State.returning { s with dec := Decoder.armed s.arg0 s.capacityArg } 0#64 with
      arg0 := src, arg1 := BitVec.ofNat 32 (frame .complete payload).length })
    hready (Decoder.armed_inv _ _) (.inl rfl) hsrc hinput (ha.mono hlen.le hcap.le)
    ((congrArg (bytesAt s.mem src 0) hlen).trans hbytes) hne (hfit.trans_eq hcap.symm)
  exact ⟨_, u, exec_decInit_accepted hmax, hexec, hres, hrec, hrecord⟩

/-- Settles O41: ENC leaves the source's frame, DEC_INIT an armed decoder, and DEC reads the frame back. -/
theorem encodeThenDecodeIsIdentity : Obligations.EncodeThenDecodeIsIdentity := by
  intro s base cap h0 h1 h2 hbase _ hcap hmax hsrc hdst
  have hp := State.encPresent_of_ne h0 h1 h2
  have hn := s.sourceBytes_length
  have hframe := frame_length_bounds .complete s.sourceBytes
  have hfit := hsrc.length_lt hp.arg1_pos
  have hne : s.sourceBytes ≠ [] := List.ne_nil_of_length_pos (hn ▸ hp.arg1_pos)
  have he : exec .encComplete s = .next (s.wrote (frame .complete s.sourceBytes)) :=
    congrArg Host.Outcome.next (State.encode_apart .complete hp (State.apart_frame .complete hsrc))
  obtain ⟨s₂, s₃, hinit, hdec, hres, hrec, hrecord⟩ := decInit_dec_of_frame
    (s := { s.wrote (frame .complete s.sourceBytes) with arg0 := base, arg1 := cap }) (src := s.arg2) hbase hmax
    (hn ▸ hcap) h2 hne (bytesAt_memWriteAll _ _ _ _ (by omega)) (hdst.mono (by omega) le_rfl)
  refine ⟨_, s₂, s₃, he, hinit, ?_, hres, hrec, hn ▸ hrecord⟩
  rw [s.wrote_frame_result .complete (hn ▸ s.arg1.isLt)]
  exact hdec

end Sys2Proof.Machine
end

section
/-! PROOFS. The byte machine, state by state (42_framer_decode.md R150, R151, R163 to R173), and what no byte overwrites (R175). -/

namespace Sys2Proof.Machine

/-! ### What a store leads to (R151) -/

/-- A byte whose arm of the table is `store` is stored where there is room, and overflows where there is none. -/
theorem stepByte_of_store {b v : Byte} {d : DState} {w : Work} (h : stepByte b w = store v d w) :
    (w.dec.cursor.toNat < w.dec.dstCap.toNat → stepByte b w = .going
      { dec := { w.dec with cursor := w.dec.cursor + 1#17, dstate := d },
        mem := w.mem.writeByte (byteAddr w.dec.dstBase w.dec.cursor.toNat) v }) ∧
    (w.dec.dstCap.toNat ≤ w.dec.cursor.toNat → stepByte b w = .overflow { w with dec := { w.dec with ovf := true } }) :=
  ⟨fun hr => h.trans (store_room v d hr), fun hf => h.trans (store_full v d hf)⟩

/-! ### HUNTING (R163, R164) -/

/-- Settles O30, by the byte's class: only a FLAG matters. -/
theorem byteInHunting : Obligations.ByteInHunting := by
  intro w b hd
  refine ⟨fun hb => ?_, fun hb => ?_⟩
  · subst hb
    simp only [stepByte, hd]
    rfl
  · have hne : classOf b ≠ .flag := mt classOf_eq_flag.mp hb
    cases hc : classOf b with
    | flag => exact absurd hc hne
    | escape => simp only [stepByte, hd, hc]
    | other => simp only [stepByte, hd, hc]

/-! ### FRAME_STARTED (R165 to R167) and IN_MESSAGE (R168 to R170) -/

/-- An ESCAPE between or within messages waits for the byte it escapes (R166, R169). -/
theorem stepByte_escape {w : Work} (hd : w.dec.dstate = .frameStarted ∨ w.dec.dstate = .inMessage) :
    stepByte Config.escape w = .going (w.goto .escapePending) := by
  rcases hd with hd | hd <;> simp only [stepByte, hd, classOf_escape]

/-- Any byte but FLAG and ESCAPE between or within messages is payload (R167, R170). -/
theorem stepByte_other {b : Byte} {w : Work} (hd : w.dec.dstate = .frameStarted ∨ w.dec.dstate = .inMessage) (hf : b ≠ Config.flag)
    (he : b ≠ Config.escape) : stepByte b w = store b .inMessage w := by
  rcases hd with hd | hd <;> simp only [stepByte, hd, classOf_other hf he]

/-- Settles O31, by the byte's class. -/
theorem byteInFrameStarted : Obligations.ByteInFrameStarted := by
  intro w b hd
  refine ⟨fun hb => ?_, fun hb => ?_, fun hf he => ?_, fun hf he => ?_⟩
  · rw [show b = Config.flag from hb]
    simp only [stepByte, hd, classOf_flag]
  · exact hb ▸ stepByte_escape (.inl hd)
  · exact (stepByte_of_store (stepByte_other (.inl hd) hf he)).1
  · exact (stepByte_of_store (stepByte_other (.inl hd) hf he)).2

/-- The two bytes of the length are those of `CURSOR - ANCHOR - 2`, the low one first (R168). -/
theorem lengthBytes_messageLength (d : Decoder) :
    lengthBytes d.messageLength =
      [(d.cursor - d.anchor.setWidth 17 - 2#17).extractLsb' 0 8, (d.cursor - d.anchor.setWidth 17 - 2#17).extractLsb' 8 8] := by
  rw [lengthBytes, Decoder.messageLength, BitVec.extractLsb'_setWidth_of_le (by decide),
    BitVec.extractLsb'_setWidth_of_le (by decide)]

/-- Completing a message writes the two bytes of its length slot and nothing else (R168). -/
theorem Work.complete_mem (w : Work) :
    w.complete.mem.readByte (byteAddr w.dec.dstBase w.dec.anchor.toNat) =
        (w.dec.cursor - w.dec.anchor.setWidth 17 - 2#17).extractLsb' 0 8 ∧
      w.complete.mem.readByte (byteAddr w.dec.dstBase (w.dec.anchor.toNat + 1)) =
        (w.dec.cursor - w.dec.anchor.setWidth 17 - 2#17).extractLsb' 8 8 ∧
      ∀ a : Nat, a ≠ byteAddr w.dec.dstBase w.dec.anchor.toNat → a ≠ byteAddr w.dec.dstBase (w.dec.anchor.toNat + 1) →
        w.complete.mem.readByte a = w.mem.readByte a := by
  have ha := w.dec.anchor_lt
  have hne : byteAddr w.dec.dstBase w.dec.anchor.toNat ≠ byteAddr w.dec.dstBase (w.dec.anchor.toNat + 1) :=
    byteAddr_ne (by omega) (by omega) (by omega)
  rw [Work.complete, lengthBytes_messageLength]
  simp only [memWriteAll, memWrite]
  refine ⟨?_, Memory.readByte_writeByte_same _ _ _, fun a h0 h1 => ?_⟩
  · rw [Memory.readByte_writeByte_other hne, Memory.readByte_writeByte_same]
  · rw [Memory.readByte_writeByte_other h1, Memory.readByte_writeByte_other h0]

/-- Settles O32, by the byte's class. -/
theorem byteInMessage : Obligations.ByteInMessage := by
  intro w b hd
  refine ⟨fun hb => ⟨w.complete.mem, ?_, w.complete_mem⟩, fun hb => ?_, fun hf he hr => ?_, fun hf he => ?_⟩
  · rw [show b = Config.flag from hb]
    simp only [stepByte, hd, classOf_flag]
    rfl
  · exact hb ▸ stepByte_escape (.inr hd)
  · rw [(stepByte_of_store (stepByte_other (.inr hd) hf he)).1 hr, ← hd]
  · exact (stepByte_of_store (stepByte_other (.inr hd) hf he)).2

/-! ### ESCAPE_PENDING (R171, R172) -/

/-- After an ESCAPE any byte but FLAG is payload, unmasked (R172). -/
theorem stepByte_unmask {b : Byte} {w : Work} (hd : w.dec.dstate = .escapePending) (hf : b ≠ Config.flag) :
    stepByte b w = store (b ^^^ Config.xorMask) .inMessage w := by
  cases hc : classOf b with
  | flag => exact absurd (classOf_eq_flag.mp hc) hf
  | escape => simp only [stepByte, hd, hc]
  | other => simp only [stepByte, hd, hc]

/-- Settles O33, by the byte's class. -/
theorem byteInEscapePending : Obligations.ByteInEscapePending := by
  intro w b hd
  refine ⟨fun hb => ?_, fun hf => ?_, fun hf => ?_⟩
  · rw [show b = Config.flag from hb]
    simp only [stepByte, hd, classOf_flag]
    rfl
  · exact (stepByte_of_store (stepByte_unmask hd hf)).1
  · exact (stepByte_of_store (stepByte_unmask hd hf)).2

/-! ### Retired records (R175) -/

/-- No byte moves `ANCHOR` down: a completion moves it up to `CURSOR`, and nothing else moves it (R28). -/
theorem stepByte_anchor_le (b : Byte) {w : Work} (hi : w.dec.Inv) : w.dec.anchor.toNat ≤ (stepByte b w).work.dec.anchor.toNat := by
  rcases stepByte_cases b w with ⟨v, -, -, h⟩ | ⟨-, hd, -, h⟩ | ⟨-, -, -, h⟩ | ⟨-, -, -, -, h⟩ <;> rw [h]
  · unfold store
    split <;> exact le_rfl
  · obtain ⟨-, -, hmessage, -⟩ := hi
    have := hmessage hd
    have := w.dec.dstCap_lt
    have hcursor : (w.dec.cursor.setWidth 16).toNat = w.dec.cursor.toNat := by
      rw [BitVec.toNat_setWidth]
      omega
    change _ ≤ (w.dec.cursor.setWidth 16).toNat
    omega
  · exact le_rfl
  · exact le_rfl

/-- Settles O36: a byte writes from `ANCHOR` up only. -/
theorem retiredRecordsAreNotOverwritten : Obligations.RetiredRecordsAreNotOverwritten := by
  intro w b hi i hlt
  have ha := w.dec.anchor_lt
  have hc := w.dec.dstCap_lt
  exact ⟨stepByte_outside b hi _ fun j _ _ => byteAddr_ne (by omega) (by omega) (by omega), stepByte_anchor_le b hi⟩

end Sys2Proof.Machine
end

section
/-! PROOFS. The two decoder commands as a whole (42_framer_decode.md R141, R160 to R162, R175): what each returns, what a DEC feeds and where it
writes, and that `COUNT` never wraps. -/

namespace Sys2Proof.Machine

/-! ### COUNT (R162) -/

/-- After the bytes of a DEC the message count is that of records that lie before `ANCHOR`, at least 3 bytes each (R162). -/
theorem feed_countBound {s : State} (hi : s.dec.Inv) : s.feed.work.dec.CountBound := by
  obtain ⟨p, hp, hstart, hbefore⟩ := feed_holds hi
  obtain ⟨-, hcount⟩ := hp.count_toNat hbefore
  rwa [hstart] at hcount

/-- Every command keeps the bound: DEC_INIT clears `COUNT`, and a DEC counts afresh. -/
theorem exec_keeps_countBound {i : Instr} {s t : State} (hi : s.dec.Inv) (hb : s.dec.CountBound) (h : exec i s = .next t) :
    t.dec.CountBound := by
  rcases exec_dec_cases h with e | ⟨-, -, e⟩ | ⟨-, -, e⟩ <;> rw [e]
  · exact hb
  · exact Nat.zero_le _
  · exact feed_countBound hi

/-- The bound keeps `COUNT` far from 2^16, since `ANCHOR` has 16 bits (R30). -/
theorem Decoder.CountBound.count_le {d : Decoder} (h : d.CountBound) : d.count.toNat ≤ 21845 := by
  have := d.anchor_lt
  omega

/-- Settles O47, by the kinds of step; R32 comes along, since a DEC needs it to count whole records. -/
theorem countNeverWraps : Obligations.CountNeverWraps := by
  refine ⟨by decide, fun s t hi hb h => ?_⟩
  have hkeeps : t.dec.Inv ∧ t.dec.CountBound := by
    refine step_keeps (fun x => x.dec.Inv ∧ x.dec.CountBound)
      (hexec := fun _ _ _ ⟨hxi, hxb⟩ e => ⟨exec_keeps_decoderInv hxi e, exec_keeps_countBound hxi hxb e⟩) (hhost := fun _ _ hx => hx)
      (hrefuse := fun _ hx => hx) (hwrite := fun x offset v hx => ?_) (hobserve := fun _ _ hx => hx) (hmem := fun _ _ _ hx => hx)
      (hreset := fun _ _ => ⟨Decoder.reset_inv, Nat.zero_le _⟩) ⟨hi, hb⟩ h
    obtain ⟨-, -, hdec, -⟩ := x.writeReg_keeps offset v
    exact hdec ▸ hx
  exact ⟨hkeeps.2, hkeeps.2.count_le⟩

/-! ### DEC_INIT (R141) and DEC's checks (R161) -/

/-- Settles O27: accepted, DEC_INIT arms the decoder; refused, it sets `ERR_CMD`. -/
theorem decInitArmsTheDecoder : Obligations.DecInitArmsTheDecoder :=
  fun _ => ⟨exec_decInit_accepted, exec_decInit_refused⟩

/-- Without a destination DEC returns -1 and changes nothing else (R161). -/
theorem exec_dec_unset {s : State} (hv : s.dec.dstValid = false) : exec .dec s = .next (s.returning (-1#64)) :=
  if_pos (by rw [hv]; rfl)

/-- With a destination of no bytes DEC returns -2 and changes nothing else (R161). -/
theorem exec_dec_capacityZero {s : State} (hv : s.dec.dstValid = true) (hc : s.dec.dstCap = 0#16) :
    exec .dec s = .next (s.returning (-2#64)) :=
  (if_neg (by simp [hv])).trans (if_pos hc)

/-- Settles O28, check by check; after reset no destination is set. -/
theorem decErrorCodesInOrder : Obligations.DecErrorCodesInOrder :=
  fun _ => ⟨exec_dec_unset, exec_dec_capacityZero, exec_dec_overflowed, exec_dec_unset rfl⟩

/-! ### DEC once its checks pass (R160, R162, R175) -/

theorem feed_of_noInput {s : State} (h : s.arg0 = 0#32 ∨ s.arg1 = 0#32) : s.feed = .going s.work.begin :=
  if_pos (s.decNoInput_iff.mpr h)

/-- The payload in progress by its place: the bytes from `ANCHOR + 2` up to `CURSOR` (R12). -/
theorem Work.partialPayload_eq {w : Work} (hi : w.dec.Inv) :
    w.partialPayload =
      bytesAt w.mem w.dec.dstBase (w.dec.anchor.toNat + 2) (w.dec.cursor.toNat - w.dec.anchor.toNat - 2) := by
  rw [Work.partialPayload, Decoder.pending_toNat hi, Config.lenBytes]

/-- Settles O29: with no bytes to feed, DEC ends as it starts. -/
theorem decWithoutInputRelocates : Obligations.DecWithoutInputRelocates := by
  intro s hr hi hn
  obtain ⟨hdec, hinv, hmem, hpart, -⟩ := begin_spec (w := s.work) hi
  have hbefore := Work.partialPayload_eq (w := s.work) hi
  have hafter := Work.partialPayload_eq hinv
  have hlen : s.work.partialPayload.length = s.dec.cursor.toNat - s.dec.anchor.toNat - 2 := by rw [hbefore, bytesAt_length]; rfl
  have hlen' := congrArg List.length (hafter.symm.trans hpart)
  rw [bytesAt_length, hlen] at hlen'
  refine ⟨s.work.begin.mem, ?_, ?_, fun a ha => ?_⟩
  · refine (execDec_ready hr).trans ?_
    rw [feed_of_noInput hn]
    rfl
  · rw [hlen', hpart, hbefore, hdec] at hafter
    exact hafter.symm
  · rw [hmem]
    split
    · rfl
    · exact readByte_memWriteAll_outside _ _ fun j hj => ha _ (by omega) (by omega)

/-- Settles O34: the bytes fed are the source's, and the ending gives the return value. -/
theorem decFeedsItsSourceBytes : Obligations.DecFeedsItsSourceBytes := by
  intro s hr hi h0 h1 ha
  have hfeed := feed_eq hi h0 h1 ha
  refine ⟨fun w hw => ?_, fun w hw => ?_, exec_completes .dec s⟩
  · refine (execDec_ready hr).trans ?_
    rw [hfeed, hw]
    rfl
  · refine (execDec_ready hr).trans ?_
    rw [hfeed, hw, Fed.returnValue, decResult_errOverflow]
    rfl

/-- A DEC that fails a check changes nothing but `RESULT` (R161). -/
theorem exec_dec_of_not_ready {s : State} (h : ¬ s.dec.ready) : ∃ v, exec .dec s = .next (s.returning v) := by
  rcases execDec_cases s with ⟨-, e⟩ | ⟨-, -, e⟩ | ⟨-, -, -, e⟩ | ⟨hr, -⟩
  · exact ⟨_, e⟩
  · exact ⟨_, e⟩
  · exact ⟨_, e⟩
  · exact absurd hr h

/-- Settles O35: a DEC that fails a check writes nothing, and the bytes of one that passes them stay in the destination buffer. -/
theorem decWritesOnlyTheDestination : Obligations.DecWritesOnlyTheDestination := by
  intro s hi
  by_cases hr : s.dec.ready
  · obtain ⟨-, hdst, hout⟩ := feed_keeps hi
    exact ⟨_, execDec_ready hr, rfl, hdst.base, hdst.cap, hdst.valid, fun a ha => hout a fun ⟨i, hlt, e⟩ => ha i hlt e⟩
  · obtain ⟨v, h⟩ := exec_dec_of_not_ready hr
    exact ⟨_, h, rfl, rfl, rfl, rfl, fun _ _ => rfl⟩

end Sys2Proof.Machine
end

section
/-! PROOFS. Messages (42_framer_decode.md R153, R171, R178, R179): the room a message needs, and what a DEC makes of a frame in every decoder
state. -/

namespace Sys2Proof.Machine

/-! ### A message from FRAME_STARTED (R153) -/

/-- The stuffed bytes of a non-empty payload and the FLAG that closes them, with nothing in progress, are one message, and need exactly the room of
the payload. (It is the COMPLETE frame without its leading FLAG, which FRAME_STARTED ignores.) -/
theorem Parse.closed_step (payload : List Byte) {p : Parse} (cap : Nat) (h : p.st = .frameStarted) (hp : p.part = [])
    (hne : payload ≠ []) :
    (payload.flatMap wireBytes ++ [Config.flag]).foldl Parse.step p = { p with msgs := p.msgs ++ [payload] } ∧
      (Parse.room cap (payload.flatMap wireBytes ++ [Config.flag]) p ↔ p.used + payload.length ≤ cap) := by
  obtain ⟨hstep, hroom⟩ := Parse.frame_step payload cap (.inr h) hp hne
  obtain ⟨hflag, hnone⟩ := Parse.step_flag_idle (.inr h)
  have hself : p.step Config.flag = p := by rw [hflag, ← h]
  have hframe : frame .complete payload = Config.flag :: (payload.flatMap wireBytes ++ [Config.flag]) := rfl
  rw [hframe, List.foldl_cons, hself] at hstep
  rw [hframe, Parse.room, hself, hnone] at hroom
  refine ⟨by rw [hstep, ← h, ← hp], ?_⟩
  simpa using hroom

/-- Settles O39: what is fed is what a parser takes, which starts at `ANCHOR` with nothing in progress. -/
theorem messageFitsExactlyWhenRoom : Obligations.MessageFitsExactlyWhenRoom := by
  intro w payload hi hd hne
  have hpart : w.partialPayload = [] := partialPayload_of_idle hi (.inr hd)
  have hholds := holds_here hi
  rw [hpart, hd] at hholds
  have hused := hholds.used
  obtain ⟨-, hidle, -⟩ := hi
  have hcursor := hidle (.inr hd)
  obtain ⟨hclosed, hclosedRoom⟩ := Parse.closed_step payload (p := ⟨w.dec.anchor.toNat, w.dec.count, .frameStarted, [], []⟩)
    w.dec.dstCap.toNat rfl rfl hne
  obtain ⟨-, hopenRoom⟩ := Parse.stuffed_step payload (p := ⟨w.dec.anchor.toNat, w.dec.count, .frameStarted, [], []⟩)
    w.dec.dstCap.toNat (.inl rfl)
  rw [hused, hcursor] at hclosedRoom hopenRoom
  have hclosedIff := (feedBytes_going_iff _ hholds).trans hclosedRoom
  refine ⟨hclosedIff, (feedBytes_going_iff _ hholds).trans (hopenRoom.trans (forall_prop_of_true hne)), fun w' hw' => ?_⟩
  obtain ⟨x, hx, hh, hdst, -⟩ := feedBytes_room _ hholds (hclosedRoom.mpr (hclosedIff.mp ⟨w', hw'⟩))
  cases hw'.symm.trans hx
  rw [hclosed] at hh
  have hlen : (recordsBytes [payload]).length = payload.length + 2 := by rw [recordsBytes_singleton, recordBytes_length]
  have hanchor := hh.anchor
  have hrecord := hh.retired
  simp only [List.nil_append, hlen] at hanchor hrecord
  rw [recordsBytes_singleton, hdst.base] at hrecord
  exact ⟨hh.count, by omega, hrecord⟩

/-! ### A frame in any state (R178) -/

/-- A COMPLETE frame whose leading FLAG leaves nothing in progress is one message more. -/
theorem Parse.frame_step_of_flag (payload : List Byte) {p q : Parse} (cap : Nat)
    (hflag : p.step Config.flag = q ∧ storedByte p.st Config.flag = none) (hst : q.st = .frameStarted) (hpart : q.part = [])
    (hne : payload ≠ []) :
    (frame .complete payload).foldl Parse.step p = { q with msgs := q.msgs ++ [payload] } ∧
      (Parse.room cap (frame .complete payload) p ↔ q.used + payload.length ≤ cap) := by
  obtain ⟨hstep, hroom⟩ := Parse.closed_step payload cap hst hpart hne
  have hframe : frame .complete payload = Config.flag :: (payload.flatMap wireBytes ++ [Config.flag]) := rfl
  rw [hframe, List.foldl_cons, Parse.room, hflag.1, hflag.2]
  exact ⟨hstep, by simpa using hroom⟩

/-- A DEC whose bytes have room and make one message leaves that message's record and returns 1 (R162, R86). -/
theorem dec_of_one_message {s : State} {payload : List Byte} (hr : s.dec.ready) (hi : s.dec.Inv) (h0 : s.arg0 ≠ 0#32)
    (h1 : s.arg1 ≠ 0#32) (ha : apart s.arg0 s.arg1.toNat s.dec.dstBase s.dec.dstCap.toNat)
    (hstep : s.sourceBytes.foldl Parse.step s.parse = ⟨0, 0#16, .frameStarted, [], [payload]⟩)
    (hroom : Parse.room s.dec.dstCap.toNat s.sourceBytes s.parse) :
    ∃ t, exec .dec s = .next t ∧ t.result = 1#64 ∧ t.work.records = [payload] ∧ t.dec.dstate = .frameStarted ∧
      bytesAt t.mem s.dec.dstBase 0 (payload.length + 2) = recordBytes payload ∧ t.dec.anchor.toNat = payload.length + 2 ∧
      t.dec.ovf = false := by
  obtain ⟨t, he, hh, hdst, hovf, hres, -⟩ := dec_of_room hr hi h0 h1 ha hroom
  rw [hstep] at hh hres
  obtain ⟨hrec, -, -⟩ := hh.shown rfl rfl
  have hlen : (recordsBytes [payload]).length = payload.length + 2 := by rw [recordsBytes_singleton, recordBytes_length]
  have hanchor := hh.anchor
  have hrecord := hh.retired
  simp only [hlen] at hanchor hrecord
  rw [recordsBytes_singleton] at hrecord
  exact ⟨t, he, BitVec.eq_of_toNat_eq hres, hrec, hh.st, hdst.base ▸ hrecord, hanchor.trans (Nat.zero_add _), hovf⟩

/-- A source that holds a frame is not empty. -/
theorem State.arg1_ne_of_sourceBytes {s : State} (h : s.sourceBytes ≠ []) : s.arg1 ≠ 0#32 := fun e => by
  have hlen := s.sourceBytes_length
  rw [e] at hlen
  exact h (List.length_eq_zero_iff.mp hlen)

/-- Settles O40, by what the leading FLAG does to the message in progress: there is none, it is aborted, or it is completed. -/
theorem singleFrameRoundTrip : Obligations.SingleFrameRoundTrip := by
  intro s S hne hfit hr hi h0 hsrc ha
  have h1 : s.arg1 ≠ 0#32 := State.arg1_ne_of_sourceBytes (hsrc ▸ List.cons_ne_nil _ _)
  refine ⟨fun hd => ?_, fun hd hfit₂ => ?_⟩
  · cases hst : s.dec.dstate with
    | hunting => exact dec_of_frame hr hi (.inl hst) h0 h1 ha hsrc hne hfit
    | frameStarted => exact dec_of_frame hr hi (.inr hst) h0 h1 ha hsrc hne hfit
    | inMessage => exact absurd hst hd
    | escapePending =>
      obtain ⟨hstep, hroom⟩ := Parse.frame_step_of_flag S (p := s.parse) s.dec.dstCap.toNat (Parse.step_flag_abort hst) rfl rfl hne
      have hused : Parse.used { s.parse with st := .frameStarted, part := [] } = 2 := rfl
      rw [hused, ← hsrc] at hroom
      exact dec_of_one_message hr hi h0 h1 ha (hsrc ▸ hstep) (hroom.mpr (by omega))
  · obtain ⟨hstep, hroom⟩ := Parse.frame_step_of_flag S (p := s.parse) s.dec.dstCap.toNat (Parse.step_flag_message hd) rfl rfl hne
    have hused : Parse.used { s.parse with st := .frameStarted, part := [], msgs := s.parse.msgs ++ [s.parse.part] } =
        s.work.partialPayload.length + 4 := by
      simp [Parse.used, State.parse, recordsBytes_singleton, recordBytes_length]
    rw [hused, ← hsrc] at hroom
    obtain ⟨t, he, hh, -, -, hres, -⟩ := dec_of_room hr hi h0 h1 ha (hroom.mpr (by omega))
    rw [hsrc, hstep] at hh hres
    obtain ⟨hrec, -, -⟩ := hh.shown rfl rfl
    exact ⟨t, he, BitVec.eq_of_toNat_eq hres, hrec, hh.st⟩

/-! ### An aborted fragment (R171, R176, R179) -/

/-- A stuffed fragment that ESCAPE, FLAG aborts leaves no trace, but needs room while it is received (R153). -/
theorem Parse.aborted_step (fragment : List Byte) {p : Parse} (cap : Nat) (h : p.st = .frameStarted) (hp : p.part = []) :
    (fragment.flatMap wireBytes ++ [Config.escape, Config.flag]).foldl Parse.step p = p ∧
      (Parse.room cap (fragment.flatMap wireBytes ++ [Config.escape, Config.flag]) p ↔
        (fragment ≠ [] → p.used + fragment.length ≤ cap)) := by
  obtain ⟨hstep, hroom⟩ := Parse.stuffed_step fragment cap (.inl h)
  have hopen : (if fragment = [] then p.st else .inMessage) = .frameStarted ∨ (if fragment = [] then p.st else .inMessage) = .inMessage := by
    split
    · exact .inl h
    · exact .inr rfl
  obtain ⟨hescape, hescapeNone⟩ := Parse.step_escape
    (p := { p with st := if fragment = [] then p.st else .inMessage, part := p.part ++ fragment }) hopen
  obtain ⟨habort, habortNone⟩ := Parse.step_flag_abort (p := { p with st := .escapePending, part := p.part ++ fragment }) rfl
  constructor
  · rw [List.foldl_append, hstep, List.foldl_cons, hescape, List.foldl_cons, habort, List.foldl_nil, ← h, ← hp]
  · rw [Parse.room_append, hroom, hstep]
    simp [Parse.room, hescape, hescapeNone, habortNone]

/-- Settles O42: the first FLAG starts a frame, the aborted fragment leaves no trace, and the frame of `S` is the one message. -/
theorem abortedFragmentIsDropped : Obligations.AbortedFragmentIsDropped := by
  intro s fragment S hne hfit hfragment hr hi hd h0 hsrc ha
  have h1 : s.arg1 ≠ 0#32 := State.arg1_ne_of_sourceBytes (hsrc ▸ List.cons_ne_nil _ _)
  have hpart : s.parse.part = [] := partialPayload_of_idle (w := s.work) hi hd
  obtain ⟨hflag, hnone⟩ := Parse.step_flag_idle (p := s.parse) hd
  obtain ⟨habort, habortRoom⟩ := Parse.aborted_step fragment (p := { s.parse with st := .frameStarted }) s.dec.dstCap.toNat rfl hpart
  obtain ⟨hframe, hframeRoom⟩ := Parse.frame_step S (p := { s.parse with st := .frameStarted }) s.dec.dstCap.toNat (.inr rfl) hpart hne
  have hused : Parse.used { s.parse with st := .frameStarted } = 2 := by rw [Parse.used, hpart]; rfl
  rw [hused] at habortRoom hframeRoom
  have hbytes : s.sourceBytes =
      Config.flag :: (fragment.flatMap wireBytes ++ [Config.escape, Config.flag] ++ frame .complete S) := hsrc
  obtain ⟨t, he, hres, hrec, -⟩ := dec_of_one_message (payload := S) hr hi h0 h1 ha
    (by rw [hbytes, List.foldl_cons, hflag, List.foldl_append, habort, hframe]; rfl)
    (by
      rw [hbytes, Parse.room, hnone, hflag, Parse.room_append, habort, habortRoom, hframeRoom]
      exact ⟨nofun, fun _ => by omega, by omega⟩)
  exact ⟨t, he, hres, hrec⟩

end Sys2Proof.Machine
end

section
/-! PROOFS. Delivery in pieces (42_framer_decode.md R177, R225): between two DECs a parser forgets its messages, and nothing else. -/

namespace Sys2Proof.Machine

/-! ### Messages a parser already has -/

/-- A parser with some messages before its own. -/
def Parse.after (msgs : List (List Byte)) (p : Parse) : Parse := { p with msgs := msgs ++ p.msgs }

/-- What bytes do to a parser does not depend on the messages it already has. -/
theorem Parse.step_after (msgs : List (List Byte)) (p : Parse) (b : Byte) : (p.after msgs).step b = (p.step b).after msgs := by
  unfold Parse.step Parse.after
  simp only
  cases storedByte p.st b with
  | some v => rfl
  | none =>
    simp only
    split_ifs
    · simp
    · rfl
    · rfl

theorem Parse.foldl_after (msgs : List (List Byte)) (bs : List Byte) (p : Parse) :
    bs.foldl Parse.step (p.after msgs) = (bs.foldl Parse.step p).after msgs := by
  induction bs generalizing p with
  | nil => rfl
  | cons b rest ih => rw [List.foldl_cons, List.foldl_cons, Parse.step_after, ih]

/-- Without the messages before them, bytes have no less room. -/
theorem Parse.room_of_after (msgs : List (List Byte)) (cap : Nat) (bs : List Byte) {p : Parse} (h : Parse.room cap bs (p.after msgs)) :
    Parse.room cap bs p := by
  induction bs generalizing p with
  | nil => trivial
  | cons b rest ih =>
    obtain ⟨hb, hrest⟩ := h
    have hused : p.used ≤ (p.after msgs).used := by
      simp only [Parse.used, Parse.after, recordsBytes_append, List.length_append]
      omega
    exact ⟨fun hs => hused.trans_lt (hb hs), ih (Parse.step_after msgs p b ▸ hrest)⟩

/-- The next DEC's parser goes on where the last one stopped, without its messages (R160, R162). -/
theorem Holds.parse {t : State} {p : Parse} (h : Holds t.work p) (h0 : p.start = 0) (hb : p.before = 0#16) :
    p = t.parse.after p.msgs := by
  obtain ⟨-, -, hpart⟩ := h.shown h0 hb
  have hst : t.dec.dstate = p.st := h.st
  obtain ⟨start, before, st, part, msgs⟩ := p
  subst h0 hb
  simp [Parse.after, State.parse, hpart, hst]

/-! ### One piece and all of them -/

/-- A region of `n` bytes that DECs can read piece by piece without reading what they write: it starts at a present address unless it is empty, ends
at or below the top of memory, and shares no byte with the destination buffer (R177). -/
structure Deliverable (d : Decoder) (src : Word) (n : Nat) : Prop where
  present : n ≠ 0 → src ≠ 0#32
  below : src.toNat + n ≤ 2 ^ 32
  separate : apart src n d.dstBase d.dstCap.toNat

/-- `ARG1` can name the region's length: it ends at 2^32 at the latest, and starts above 0. -/
theorem Deliverable.lt {d : Decoder} {src : Word} {n : Nat} (h : Deliverable d src n) : n < 2 ^ 32 := by
  obtain ⟨hpresent, hbelow, -⟩ := h
  by_contra hn
  exact hpresent (by omega) (BitVec.eq_of_toNat_eq (by rw [BitVec.toNat_ofNat]; omega))

/-- The first `k` bytes of a deliverable region. -/
theorem Deliverable.first {d : Decoder} {src : Word} {k n : Nat} (h : Deliverable d src (k + n)) : Deliverable d src k :=
  ⟨fun hk => h.present (by omega), (Nat.add_le_add_left (Nat.le_add_right k n) _).trans h.below,
    h.separate.mono (Nat.le_add_right k n) le_rfl⟩

/-- What is left of a deliverable region after its first `k` bytes, for the decoder a DEC of these leaves. -/
theorem Deliverable.rest {d d' : Decoder} {src : Word} {k n : Nat} (h : Deliverable d src (k + n)) (hd : SameDestination d d') :
    Deliverable d' (src + BitVec.ofNat 32 k) n := by
  obtain ⟨hpresent, hbelow, hseparate⟩ := h
  have hnext : (src + BitVec.ofNat 32 k).toNat = (src.toNat + k) % 2 ^ 32 := byteAddr_eq src k
  have hsrc : n ≠ 0 → src.toNat ≠ 0 := fun hn e => hpresent (by omega) (BitVec.eq_of_toNat_eq e)
  refine ⟨fun hn e => ?_, by omega, fun i hi j hj => ?_⟩
  · have hpos := hsrc hn
    rw [e, BitVec.toNat_ofNat] at hnext
    omega
  · rw [byteAddr_add, hd.base]
    rw [hd.cap] at hj
    exact hseparate (k + i) (by omega) j hj

/-- A DEC of the bytes of a region, which may be none, when they have room: it ends as the parser does (R162). -/
theorem dec_of_region {s : State} {src : Word} {n : Nat} (hr : s.dec.ready) (hi : s.dec.Inv) (hregion : Deliverable s.dec src n)
    (hroom : Parse.room s.dec.dstCap.toNat (bytesAt s.mem src 0 n) s.parse) :
    ∃ t, exec .dec { s with arg0 := src, arg1 := BitVec.ofNat 32 n } = .next t ∧
      Holds t.work ((bytesAt s.mem src 0 n).foldl Parse.step s.parse) ∧ SameDestination s.dec t.dec ∧ t.dec.ovf = false ∧
      keepsOutside s.mem t.mem s.dec.dstBase s.dec.dstCap.toNat := by
  obtain ⟨len, rfl⟩ : ∃ len : Word, n = len.toNat :=
    ⟨BitVec.ofNat 32 n, (BitVec.toNat_ofNat n 32 ▸ Nat.mod_eq_of_lt hregion.lt).symm⟩
  rw [BitVec.ofNat_toNat, BitVec.setWidth_eq]
  by_cases h1 : len = 0#32
  · subst h1
    exact dec_of_noInput (s := { s with arg0 := src, arg1 := 0#32 }) hr hi ((State.decNoInput_iff _).mpr (.inr rfl))
  · have h0 : src ≠ 0#32 := hregion.present fun e => h1 (BitVec.eq_of_toNat_eq e)
    obtain ⟨t, he, hh, hdst, hovf, -, hout⟩ :=
      dec_of_room (s := { s with arg0 := src, arg1 := len }) hr hi h0 h1 hregion.separate hroom
    exact ⟨t, he, hh, hdst, hovf, hout⟩

/-- A decoder with the destination of one that passes DEC's checks passes them, unless it overflowed (R161). -/
theorem SameDestination.ready {d d' : Decoder} (h : SameDestination d d') (hr : d.ready) (ho : d'.ovf = false) : d'.ready := by
  obtain ⟨hvalid, hcap, -⟩ := hr
  exact ⟨h.valid.trans hvalid, h.cap ▸ hcap, ho⟩

theorem decPieces_cons {src : Word} {n : Nat} {s t : State} (rest : List Nat)
    (h : exec .dec { s with arg0 := src, arg1 := BitVec.ofNat 32 n } = .next t) :
    decPieces src (n :: rest) s = (decPieces (src + BitVec.ofNat 32 n) rest t).map fun r => (t.work.records ++ r.1, r.2) := by
  simp only [decPieces, h]

/-- DECs of the pieces of a region whose bytes have room read, together, the messages of one parser over the whole region, and end as it does. -/
theorem decPieces_parse (pieces : List Nat) {s : State} {src : Word} (hr : s.dec.ready) (hi : s.dec.Inv)
    (hregion : Deliverable s.dec src pieces.sum)
    (hroom : Parse.room s.dec.dstCap.toNat (bytesAt s.mem src 0 pieces.sum) s.parse) :
    ∃ u, decPieces src pieces s = some (((bytesAt s.mem src 0 pieces.sum).foldl Parse.step s.parse).msgs, u) ∧
      u.dec.dstate = ((bytesAt s.mem src 0 pieces.sum).foldl Parse.step s.parse).st ∧
      u.work.partialPayload = ((bytesAt s.mem src 0 pieces.sum).foldl Parse.step s.parse).part ∧ u.dec.ovf = false := by
  induction pieces generalizing s src with
  | nil =>
    obtain ⟨-, -, hovf⟩ := hr
    exact ⟨s, rfl, rfl, rfl, hovf⟩
  | cons n rest ih =>
    rw [List.sum_cons] at hregion hroom ⊢
    rw [bytesAt_append, Parse.room_append] at hroom
    rw [bytesAt_append, List.foldl_append]
    obtain ⟨hfirst, hlater⟩ := hroom
    obtain ⟨t, he, hh, hdst, hovf, hout⟩ := dec_of_region hr hi hregion.first hfirst
    have hsame : bytesAt t.mem (src + BitVec.ofNat 32 n) 0 rest.sum = bytesAt s.mem src (0 + n) rest.sum := by
      rw [bytesAt_shift, Nat.add_comm]
      exact bytesAt_congr fun j hj => hout _ fun ⟨q, hq, e⟩ => hregion.separate _ (by omega) q hq e
    have hstart : ((bytesAt s.mem src 0 n).foldl Parse.step s.parse).start = 0 := Parse.foldl_start _ _
    have hbefore : ((bytesAt s.mem src 0 n).foldl Parse.step s.parse).before = 0#16 := Parse.foldl_before _ _
    -- The rest, fed to the next DEC's parser, is fed to the first one's with its messages left out.
    generalize (bytesAt s.mem src 0 n).foldl Parse.step s.parse = p at hh hlater hstart hbefore ⊢
    obtain ⟨hrec, -, -⟩ := hh.shown hstart hbefore
    have hp := hh.parse hstart hbefore
    have hfold := (congrArg (List.foldl Parse.step · (bytesAt s.mem src (0 + n) rest.sum)) hp).trans (Parse.foldl_after ..)
    rw [← hsame] at hfold hlater ⊢
    obtain ⟨u, hrun, hend⟩ := ih (hdst.ready hr hovf) hh.inv (hregion.rest hdst)
      (hdst.cap ▸ Parse.room_of_after p.msgs _ _ (hp ▸ hlater))
    rw [hfold]
    refine ⟨u, ?_, hend⟩
    rw [decPieces_cons rest he, hrun, hrec]
    rfl

/-- Settles O43: where one DEC does not overflow its bytes have room, and one parser tells what it and the DECs of its pieces leave. -/
theorem chunkedDeliveryAgrees : Obligations.ChunkedDeliveryAgrees := by
  intro s t pieces hr hi h0 h1 hsum hbelow ha ht hovf
  have hroom : Parse.room s.dec.dstCap.toNat s.sourceBytes s.parse := by
    by_contra hn
    obtain ⟨t', ht', hovf'⟩ := dec_of_noRoom hr hi h0 h1 ha hn
    cases ht.symm.trans ht'
    exact absurd (hovf'.symm.trans hovf) (by decide)
  obtain ⟨t', ht', hh, -⟩ := dec_of_room hr hi h0 h1 ha hroom
  cases ht.symm.trans ht'
  obtain ⟨hrec, -, hpart⟩ := hh.shown (Parse.foldl_start _ _) (Parse.foldl_before _ _)
  obtain ⟨u, hrun, hst, hpart', hovf'⟩ := decPieces_parse pieces hr hi (src := s.arg0)
    (hsum ▸ ⟨fun _ => h0, hbelow, ha⟩) (hsum ▸ hroom)
  rw [hsum] at hrun hst hpart'
  exact ⟨u, hrec ▸ hrun, hst.trans hh.st.symm, hpart'.trans hpart.symm, hovf'⟩

end Sys2Proof.Machine
end

section
/-! PROOFS. The sequence extender's four commands (43_sequence_extender.md R181 to R188): what each does to its stream and returns, how far
SEQ_EXTEND moves `V`, and that a stream stays fresh until a sample reaches it. -/

namespace Sys2Proof.Machine

/-! ### What each command does to its stream (R181, R183, R185, R187) -/

/-- A later SEQ_EXTEND with a decrease counts one wrap (R181). -/
theorem Stream.extend_wrap {x : Stream} {raw : Byte} (h : x.init = true) (hlt : raw.toNat < x.low.toNat) :
    x.extend raw = { init := true, high := x.high + 1#56, low := raw, baseline := x.baseline } := by
  simp [Stream.extend, h, hlt]

/-- A later SEQ_EXTEND without a decrease keeps `HIGH` (R181). -/
theorem Stream.extend_noWrap {x : Stream} {raw : Byte} (h : x.init = true) (hle : x.low.toNat ≤ raw.toNat) :
    x.extend raw = { init := true, high := x.high, low := raw, baseline := x.baseline } := by
  simp [Stream.extend, h, Nat.not_lt.mpr hle]

/-- SEQ_EXTEND writes its stream and returns the `V` it leaves there. -/
theorem exec_seqExtend (id raw : Byte) (s : State) :
    exec (.seqExtend id raw) s =
      .next ((s.setStream id ((s.stream id).extend raw)).returning ((s.stream id).extend raw).value) := rfl

/-- SEQ_INCREMENT writes its stream and returns the `V` it leaves there. -/
theorem exec_seqIncrement (id raw : Byte) (s : State) :
    exec (.seqIncrement id raw) s =
      .next ((s.setStream id (s.stream id).increment).returning (s.stream id).increment.value) := by
  rw [Stream.increment_value]
  rfl

/-- What the next command on the stream finds after a SEQ_EXTEND, and the id returned. -/
theorem exec_seqExtend_stream {id raw : Byte} {s t : State} (h : exec (.seqExtend id raw) s = .next t) :
    t.stream id = (s.stream id).extend raw ∧ t.result = ((s.stream id).extend raw).value := by
  cases (exec_seqExtend id raw s).symm.trans h
  exact ⟨s.stream_setStream_same id _, rfl⟩

/-- What the next command on the stream finds after a SEQ_INCREMENT, and the id returned. -/
theorem exec_seqIncrement_stream {id raw : Byte} {s t : State} (h : exec (.seqIncrement id raw) s = .next t) :
    t.stream id = (s.stream id).increment ∧ t.result = (s.stream id).increment.value := by
  cases (exec_seqIncrement id raw s).symm.trans h
  exact ⟨s.stream_setStream_same id _, rfl⟩

theorem exec_seqReset (id : Byte) (s : State) :
    exec (.seqReset id) s = .next ((s.setStream id Stream.fresh).returning 0#64) := rfl

/-- After SEQ_RESET the stream is fresh. -/
theorem exec_seqReset_stream {id : Byte} {s t : State} (h : exec (.seqReset id) s = .next t) : t.stream id = Stream.fresh := by
  cases (exec_seqReset id s).symm.trans h
  exact s.stream_setStream_same id _

theorem exec_seqIsEmpty (id : Byte) (s : State) :
    exec (.seqIsEmpty id) s = .next (s.returning (if (s.stream id).init then 0#64 else 1#64)) := rfl

theorem exec_seqIsEmpty_fresh {id : Byte} {s : State} (h : (s.stream id).init = false) :
    exec (.seqIsEmpty id) s = .next { s with result := 1#64 } := by
  rw [exec_seqIsEmpty, h]
  rfl

theorem exec_seqIsEmpty_initialised {id : Byte} {s : State} (h : (s.stream id).init = true) :
    exec (.seqIsEmpty id) s = .next { s with result := 0#64 } := by
  rw [exec_seqIsEmpty, h]
  rfl

/-- Settles O50, by the three cases of SEQ_EXTEND on one stream. -/
theorem seqExtendResult : Obligations.SeqExtendResult := by
  intro s id raw
  refine ⟨fun h => ?_, fun h hlt => ?_, fun h hle => ?_⟩ <;> rw [exec_seqExtend]
  · rw [Stream.extend_first raw h]
    rfl
  · rw [Stream.extend_wrap h hlt]
    rfl
  · rw [Stream.extend_noWrap h hle]
    rfl

/-- Settles O51: the numbers `HIGH * 256 + LOW` before and after are the two values of `V`. -/
theorem seqIncrementResult : Obligations.SeqIncrementResult := by
  intro s id raw
  refine ⟨(s.stream id).increment, exec_seqIncrement id raw s, rfl, rfl, ?_⟩
  rw [← Stream.value_toNat, ← Stream.value_toNat, Stream.increment_value, BitVec.toNat_add]
  rfl

/-- Settles O52, by `INIT` of the stream each command leaves. -/
theorem seqIsEmptyResult : Obligations.SeqIsEmptyResult := by
  intro s id
  refine ⟨exec_seqIsEmpty_fresh, exec_seqIsEmpty_initialised, exec_seqIsEmpty_fresh ?_, fun t h => ?_, fun raw t h => ?_⟩
  · exact congrArg Stream.init (State.reset_stream id)
  · exact exec_seqIsEmpty_fresh (congrArg Stream.init (exec_seqReset_stream h))
  · apply exec_seqIsEmpty_initialised
    rcases h with h | h
    · obtain ⟨hst, -⟩ := exec_seqExtend_stream h
      rw [hst, Stream.extend_init]
    · obtain ⟨hst, -⟩ := exec_seqIncrement_stream h
      exact congrArg Stream.init hst

/-- Settles O53: what is stored is the fresh stream, which reset leaves too. -/
theorem seqResetResult : Obligations.SeqResetResult :=
  fun s id => ⟨exec_seqReset id s, fun _ h => (exec_seqReset_stream h).trans (State.reset_stream id).symm⟩

/-! ### How far SEQ_EXTEND moves `V` (R182, R184) -/

/-- Settles O56: the id returned is the stream's new `V`. -/
theorem extendAdvancesByTheByteDifference : Obligations.ExtendAdvancesByTheByteDifference :=
  fun s id raw h => ⟨_, exec_seqExtend id raw s, Stream.extend_value raw h⟩

/-- On an initialised stream SEQ_EXTEND does not lower `V`, unless it counts the wrap that takes `HIGH` past 2^56 - 1 (R182). -/
theorem Stream.value_le_extend {x : Stream} (raw : Byte) (h : x.init = true) :
    x.value.toNat ≤ (x.extend raw).value.toNat ∨ (x.high.toNat = 2 ^ 56 - 1 ∧ raw.toNat < x.low.toNat) := by
  by_cases hlt : raw.toNat < x.low.toNat
  · by_cases htop : x.high.toNat = 2 ^ 56 - 1
    · exact .inr ⟨htop, hlt⟩
    · left
      have hlow := x.low.isLt
      have hhigh : (x.high + 1#56).toNat = x.high.toNat + 1 := by
        have := x.high.isLt
        rw [BitVec.toNat_add, BitVec.toNat_ofNat]
        omega
      rw [Stream.extend_wrap h hlt, Stream.value_toNat, Stream.value_toNat, hhigh]
      omega
  · left
    rw [Stream.extend_noWrap h (Nat.not_lt.mp hlt), Stream.value_toNat, Stream.value_toNat]
    exact Nat.add_le_add_left (Nat.not_lt.mp hlt) _

/-- Settles O57: the id returned is the stream's new `V`. -/
theorem extendedIdsNeverDecrease : Obligations.ExtendedIdsNeverDecrease :=
  fun s id raw h => ⟨_, exec_seqExtend id raw s, Stream.value_le_extend raw h⟩

/-! ### Fresh until initialised (R188) -/

/-- R188 speaks of the streams alone. -/
theorem State.StreamsInv.congr {s t : State} (h : s.StreamsInv) (hst : t.streams = s.streams) : t.StreamsInv :=
  fun id => State.stream_congr hst id ▸ h id

/-- Every command keeps R188: it leaves the streams alone, or stores one that meets it. -/
theorem exec_keeps_streamsInv {i : Instr} {s t : State} (hs : s.StreamsInv) (h : exec i s = .next t) : t.StreamsInv := by
  rcases exec_cases i s with ⟨mode, -, e⟩ | ⟨-, -, e⟩ | ⟨-, -, e⟩ | ⟨-, _, e, -⟩ | ⟨-, -, e⟩ | ⟨id, -, _, _, e, hx⟩ | ⟨_, _, -, e⟩ <;>
    cases e.symm.trans h
  · exact hs.congr (s.encode_streams mode)
  · exact hs -- an accepted DEC_INIT
  · exact hs -- a refused DEC_INIT
  · exact hs -- a DEC that fails a check
  · exact hs -- a DEC that takes its bytes
  · exact State.setStream_inv id hx hs
  · exact hs -- SEQ_IS_EMPTY

/-- Every step keeps R188. -/
theorem step_keeps_streamsInv {s t : State} (hs : s.StreamsInv) (h : step s = .next t) : t.StreamsInv := by
  refine step_keeps State.StreamsInv (hexec := fun _ _ _ hx e => exec_keeps_streamsInv hx e) (hhost := fun _ _ hx => hx)
    (hrefuse := fun _ hx => hx) (hwrite := fun x offset v hx => ?_) (hobserve := fun _ _ hx => hx) (hmem := fun _ _ _ hx => hx)
    (hreset := fun x _ id => ?_) hs h
  · obtain ⟨-, -, -, hst, -⟩ := x.writeReg_keeps offset v
    exact hx.congr hst
  · rw [State.resetBlock_stream]
    exact Stream.fresh_inv

theorem State.reset_streamsInv : State.reset.StreamsInv := fun id => by
  rw [State.reset_stream]
  exact Stream.fresh_inv

/-- Where R188 holds, a stream with `INIT` = 0 is the fresh one. -/
theorem Stream.Inv.eq_fresh {x : Stream} (h : x.Inv) (hinit : x.init = false) : x = Stream.fresh := by
  obtain ⟨hhigh, hlow, hbase⟩ := h hinit
  cases x
  subst hinit hhigh hlow hbase
  rfl

/-- The first SEQ_EXTEND on a fresh stream makes `V` the raw value (R188). -/
theorem Stream.fresh_extend_value (raw : Byte) : (Stream.fresh.extend raw).value = raw.setWidth 64 := by
  apply BitVec.eq_of_toNat_eq
  rw [Stream.extend_first raw rfl, Stream.value_toNat, BitVec.toNat_setWidth]
  have := raw.isLt
  simp only [Stream.fresh, BitVec.toNat_ofNat]
  omega

/-- Settles O48, by the kinds of step; a stream with `INIT` = 0 is then the fresh one. -/
theorem streamsStayFreshUntilInitialised : Obligations.StreamsStayFreshUntilInitialised := by
  refine ⟨State.reset_streamsInv, fun _ _ hs h => step_keeps_streamsInv hs h, fun s id raw hs hinit => ?_⟩
  have hfresh := (hs id).eq_fresh hinit
  refine ⟨?_, _, exec_seqExtend id raw s, ?_⟩ <;> rw [hfresh]
  · rfl
  · exact Stream.fresh_extend_value raw

end Sys2Proof.Machine
end

section
/-! PROOFS. Runs of SEQ_EXTENDs and of SEQ_INCREMENTs on one stream (43_sequence_extender.md R182, R183): the ids follow the true sample numbers,
and the counter counts from 1. -/

namespace Sys2Proof.Machine

theorem runCommands_cons {i : Instr} {s t : State} (rest : List Instr) (h : exec i s = .next t) :
    runCommands (i :: rest) s = (runCommands rest t).map fun r => (t.result :: r.1, r.2) := by
  simp only [runCommands, h]

/-! ### True sample numbers (R182) -/

/-- The extender has followed its stream up to its true sample number `t`, with an id too small by `256 * wraps`, the wraps that came before its first
sample. -/
structure Stream.Follows (x : Stream) (wraps t : Nat) : Prop where
  init : x.init = true
  low : x.low = BitVec.ofNat 8 t
  begun : 256 * wraps ≤ t
  value : x.value = BitVec.ofNat 64 (t - 256 * wraps)

/-- A fresh extender follows its stream from its first sample on. -/
theorem Stream.Follows.first (t : Nat) : (Stream.fresh.extend (BitVec.ofNat 8 t)).Follows (t / 256) t where
  init := Stream.extend_init _ _
  low := Stream.extend_low _ _
  begun := Nat.mul_div_le t 256
  value := by
    apply BitVec.eq_of_toNat_eq
    simp only [Stream.fresh_extend_value, BitVec.toNat_setWidth, BitVec.toNat_ofNat]
    omega

/-- Two sample numbers at most 255 apart differ by what their low bytes do. -/
theorem setWidth_ofNat_sub_ofNat {a b : Nat} (hlt : a < b) (hgap : b - a ≤ 255) :
    (BitVec.ofNat 8 b - BitVec.ofNat 8 a).setWidth 64 = BitVec.ofNat 64 (b - a) := by
  apply BitVec.eq_of_toNat_eq
  simp only [BitVec.toNat_setWidth, BitVec.toNat_sub, BitVec.toNat_ofNat]
  omega

/-- The next sample, if at most 254 were lost before it, is followed too. -/
theorem Stream.Follows.next {x : Stream} {wraps a b : Nat} (h : x.Follows wraps a) (hlt : a < b) (hgap : b - a ≤ 255) :
    (x.extend (BitVec.ofNat 8 b)).Follows wraps b where
  init := Stream.extend_init _ _
  low := Stream.extend_low _ _
  begun := h.begun.trans hlt.le
  value := by
    have hbegun := h.begun
    rw [Stream.extend_value _ h.init, h.low, h.value, setWidth_ofNat_sub_ofNat hlt hgap, ← BitVec.ofNat_add]
    congr 1
    omega

/-- A SEQ_EXTEND of a sample that is followed returns its number, less the wraps before the first one. -/
theorem exec_seqExtend_follows (s : State) (id : Byte) {wraps b : Nat}
    (h : ((s.stream id).extend (BitVec.ofNat 8 b)).Follows wraps b) :
    ∃ t, exec (.seqExtend id (BitVec.ofNat 8 b)) s = .next t ∧ (t.stream id).Follows wraps b ∧
      t.result = BitVec.ofNat 64 (b - 256 * wraps) := by
  obtain ⟨t, he⟩ := exec_completes (.seqExtend id (BitVec.ofNat 8 b)) s
  obtain ⟨hst, hres⟩ := exec_seqExtend_stream he
  exact ⟨t, he, hst ▸ h, hres.trans h.value⟩

/-- SEQ_EXTENDs of the samples that come after the one an extender has followed its stream to. -/
theorem runCommands_seqExtend {s : State} {id : Byte} {wraps a : Nat} (ts : List Nat) (h : (s.stream id).Follows wraps a)
    (hchain : (a :: ts).IsChain fun a b => a < b ∧ b - a ≤ 255) :
    ∃ u, runCommands (ts.map fun t => .seqExtend id (BitVec.ofNat 8 t)) s =
      some (ts.map fun t => BitVec.ofNat 64 (t - 256 * wraps), u) := by
  induction ts generalizing s a with
  | nil => exact ⟨s, rfl⟩
  | cons b rest ih =>
    obtain ⟨⟨hlt, hgap⟩, hrest⟩ := List.isChain_cons_cons.mp hchain
    obtain ⟨t, he, hb, hres⟩ := exec_seqExtend_follows s id (h.next hlt hgap)
    obtain ⟨u, hrun⟩ := ih hb hrest
    refine ⟨u, ?_⟩
    rw [List.map_cons, runCommands_cons _ he, hrun, hres]
    rfl

/-- Settles O58: from its first sample on the fresh extender follows its stream. -/
theorem extendTracksTrueSampleNumbers : Obligations.ExtendTracksTrueSampleNumbers := by
  intro s id t₁ ts hfresh hchain _
  obtain ⟨t, he, hfirst, hres⟩ := exec_seqExtend_follows s id (hfresh ▸ Stream.Follows.first t₁)
  obtain ⟨u, hrun⟩ := runCommands_seqExtend ts hfirst hchain
  refine ⟨u, ?_⟩
  rw [List.map_cons, runCommands_cons _ he, hrun, hres]
  rfl

/-! ### Counting (R183) -/

/-- SEQ_INCREMENTs on a stream whose last id is `n` return the numbers after `n`. -/
theorem runCommands_seqIncrement {s : State} {id : Byte} {n : Nat} (raws : List Byte) (h : (s.stream id).value = BitVec.ofNat 64 n) :
    ∃ u, runCommands (raws.map fun raw => .seqIncrement id raw) s =
      some ((List.range' n raws.length).map fun k => BitVec.ofNat 64 (k + 1), u) := by
  induction raws generalizing s n with
  | nil => exact ⟨s, rfl⟩
  | cons raw rest ih =>
    have hnext : (s.stream id).increment.value = BitVec.ofNat 64 (n + 1) := by
      rw [Stream.increment_value, h, BitVec.ofNat_add]
    obtain ⟨t, he⟩ := exec_completes (.seqIncrement id raw) s
    obtain ⟨hst, hres⟩ := exec_seqIncrement_stream he
    obtain ⟨u, hrun⟩ := ih ((congrArg Stream.value hst).trans hnext)
    refine ⟨u, ?_⟩
    rw [List.map_cons, runCommands_cons _ he, hrun, hres, hnext]
    rfl

/-- Settles O59: a fresh stream has `V` = 0 (R188). -/
theorem incrementsCountFromOne : Obligations.IncrementsCountFromOne := by
  intro s id raws hfresh
  rw [List.range_eq_range']
  exact runCommands_seqIncrement raws (by rw [hfresh]; rfl)

end Sys2Proof.Machine
end

section
/-! PROOFS. Reset between two accesses, and recovery by DEC_INIT (70_reset_and_hazards.md R220, R221, R223). -/

namespace Sys2Proof.Machine

/-- A reset access is taken from the host's program and resets the block (R221). -/
theorem step_reset {s : State} {rest : List HostAccess} (h : s.host = .reset :: rest) :
    step s = .next (s.withHost rest).resetBlock := by
  simp [step, h, perform]

/-- What a reset of the block leaves once its access is taken: the reset values, buffer memory and the host's side (R37, R220). -/
theorem State.withHost_resetBlock (s : State) (rest : List HostAccess) :
    (s.withHost rest).resetBlock = { State.reset with mem := s.mem, host := rest, observed := s.observed } := rfl

/-- Settles O15: the step is the reset of the block, which keeps buffer memory and the host's side. -/
theorem resetStepKeepsBufferMemory : Obligations.ResetStepKeepsBufferMemory := fun s rest h =>
  (step_reset h).trans (congrArg Host.Outcome.next (s.withHost_resetBlock rest))

/-- Settles O44: DEC_INIT overwrites the whole decoder, so nothing is asked of the decoder before it, and the armed decoder hunts for the
frame's leading FLAG (R141, R164). -/
theorem decInitRecoversFromAnyState : Obligations.DecInitRecoversFromAnyState := by
  intro s src S hne hbase hmax hfit hsrc hbytes hapart
  obtain ⟨t, u, hinit, hdec, hres, hrec, -⟩ := decInit_dec_of_frame hbase hmax hfit hsrc hne hbytes hapart
  exact ⟨t, u, hinit, hdec, hres, hrec⟩

end Sys2Proof.Machine
end
